-- ==== Sys2Proof/Word.lean ====
section
/-! DEFINITION. The word and byte types of GF256-RSIL.

Every register and every bus access is one 32-bit word (R8 WORD, R110, R206); every buffer entry, field
element and codeword is one 8-bit value (R140, R400).  Every value is unsigned (R9). -/

namespace Sys2Proof

/-- The unit of the bus and of every register: 32 bits, bit 0 the least significant (R9, R205). -/
abbrev Word := BitVec 32

/-- A buffer entry, a codeword, a field element: 8 bits (R140, R400). -/
abbrev Byte := BitVec 8

end Sys2Proof
end

