-- ==== Sys2Proof/Syntax.lean ====
section
/-! DEFINITION. The commands of GF256-RSIL: one constructor per row of spec/opcode_table.json (R303).

A command word carries no operand and no immediate (R302), so no constructor has an argument: every operand
comes from an operand register or a buffer when the command completes. -/

namespace Sys2Proof

/-- The eleven commands, in the order of rule R303. -/
inductive Instr where
  /-- NOP, `0x00000000` (R410). -/
  | nop
  /-- GF_ADD, `0x00000001` (R411). -/
  | gfAdd
  /-- GF_MUL, `0x00000002` (R412). -/
  | gfMul
  /-- GF_INV, `0x00000003` (R413). -/
  | gfInv
  /-- GF_EXP, `0x00000004` (R414). -/
  | gfExp
  /-- GF_LOG, `0x00000005` (R415). -/
  | gfLog
  /-- POLY_MUL, `0x00000010` (R510). -/
  | polyMul
  /-- RS_GENPOLY, `0x00000011` (R520). -/
  | rsGenpoly
  /-- RS_ENCODE, `0x00000020` (R605). -/
  | rsEncode
  /-- SYNDROME, `0x00000021` (R615). -/
  | syndrome
  /-- INTERLEAVE, `0x00000030` (R720). -/
  | interleave
  deriving DecidableEq, Repr

end Sys2Proof
end

