-- ==== Sys2Proof/Decode.lean ====
section
/-! DEFINITION. Decoding a command word (R300, R303, R304), and the encoder that writes it back.

The decode reads the 32-bit word and nothing else (R300); every word that rule R303 does not list is refused by
name, and the machine then takes ILLEGAL_COMMAND (R802).  Every command is exactly one word (R301). -/

namespace Sys2Proof

/-- Why a word is no command: the two ways of rule R300.  Both raise ILLEGAL_COMMAND (R304). -/
inductive IllegalWord where
  /-- Bits [31:8], the ZERO field, are not 0. -/
  | zeroFieldNotZero
  /-- Bits [7:0] are no opcode of rule R303. -/
  | reservedOpcode
  deriving DecidableEq, Repr

/-- What the decoder answers: the command a word stands for, or why it stands for none. -/
inductive Decoded where
  | command (i : Instr)
  | illegal (why : IllegalWord)
  deriving DecidableEq, Repr

/-- OPCODE, bits [7:0] of a command word (R300). -/
def opcodeField (v : Word) : Byte := v.extractLsb' 0 8

/-- ZERO, bits [31:8] of a command word (R300). -/
def zeroField (v : Word) : BitVec 24 := v.extractLsb' 8 24

/-- The opcode map of rule R303, read from OPCODE to command. -/
def commandOf (op : Byte) : Option Instr :=
  if op = 0x00 then some .nop
  else if op = 0x01 then some .gfAdd
  else if op = 0x02 then some .gfMul
  else if op = 0x03 then some .gfInv
  else if op = 0x04 then some .gfExp
  else if op = 0x05 then some .gfLog
  else if op = 0x10 then some .polyMul
  else if op = 0x11 then some .rsGenpoly
  else if op = 0x20 then some .rsEncode
  else if op = 0x21 then some .syndrome
  else if op = 0x30 then some .interleave
  else none

/-- The decode of rule R300, total on every 32-bit word. -/
def decode (v : Word) : Decoded :=
  if zeroField v ≠ 0 then .illegal .zeroFieldNotZero
  else
    match commandOf (opcodeField v) with
    | some i => .command i
    | none => .illegal .reservedOpcode

/-- The OPCODE column of rule R303. -/
def Instr.opcode : Instr → Byte
  | .nop => 0x00
  | .gfAdd => 0x01
  | .gfMul => 0x02
  | .gfInv => 0x03
  | .gfExp => 0x04
  | .gfLog => 0x05
  | .polyMul => 0x10
  | .rsGenpoly => 0x11
  | .rsEncode => 0x20
  | .syndrome => 0x21
  | .interleave => 0x30

/-- The command word of an instruction: ZERO in bits [31:8], OPCODE in bits [7:0] (R300). -/
def encode (i : Instr) : Word := 0#24 ++ i.opcode

/-- The command word an opcode-table row of `nbits` bits stands for: bits above `nbits` are 0.  A table word's bit
numbering is the command word's own, since a command is one word (R301). -/
def tableWord (nbits w : Nat) : Word := BitVec.ofNat 32 (w % 2 ^ nbits)

/-- The instruction the decoder reads from an opcode-table word, or none where it refuses. -/
def decodeTableWord (nbits w : Nat) : Option Instr :=
  match decode (tableWord nbits w) with
  | .command i => some i
  | .illegal _ => none

end Sys2Proof
end

