-- ==== Sys2Proof/Config.lean ====
section
/-! DEFINITION. What one implementation of GF256-RSIL fixes: the parameters of rule R8, and the two it leaves
OPEN (BASE, MAX_LATENCY), which are opaque here so that no proof can see a value of them. -/

namespace Sys2Proof.Config

/-- PRIM, the primitive polynomial x^8 + x^4 + x^3 + x^2 + 1 (R8, R400). -/
def prim : BitVec 9 := 0x11D#9

/-- SIZE, the number of field elements (R8, R400). -/
def size : Nat := 256

/-- GEN_BASE, the exponent of the first root of every generator polynomial (R8, R502). -/
def genBase : Nat := 0

/-- WINDOW, the bytes of the block's address window (R8, R201). -/
def window : Nat := 65536

/-- BUF_SIZE, the entries of DBUF and of OBUF (R8). -/
def bufSize : Nat := 4096

/-- POLY_MAX, the entries of PA, PB, GEN, ECB and SYN (R8). -/
def polyMax : Nat := 256

/-- PR_SIZE, the entries of PR (R8). -/
def prSize : Nat := 512

/-- CW_MAX, the longest codeword n + k of one RS block (R8). -/
def cwMax : Nat := 255

/-- BASE, the platform address of offset 0 of the window.  OPEN in rule R8 (decision D45): no value is given. -/
opaque base : Nat

/-- MAX_LATENCY less two.  OPEN in rule R8 (decision D43): the spec says only that the bound is finite. -/
opaque latencySlack : Nat

/-- MAX_LATENCY, the most steps a command takes from its CMD write to its completion (R8, R131, R921).  A completion
is itself a step, and rule R210 lets the host move while a command runs, so the bound is at least 2 (DEDUCED, log
entry 5). -/
def maxLatency : Nat := latencySlack + 2

end Sys2Proof.Config
end

