-- ==== Sys2Proof/Machine/Names.lean ====
section
/-! DEFINITION. The names of the window: its registers (R111 to R129), its buffers (R141), the host's bus accesses
(R13, R200) and what the host does with them, and the two agents' turns (R14). -/

namespace Sys2Proof.Machine

/-- The nineteen registers, in the order of their offsets (R201). -/
inductive Reg where
  | id | ctrl | status | cmd | argA | argB | result | lenA | lenB | prLen | nLen | kLen | srcOff
  | total | dataTotal | blocks | outLen | fmtPtr | fmtBit
  deriving DecidableEq, Repr

/-- The eight buffers, in the order of their offsets (R141). -/
inductive Buf where
  | pa | pb | pr | gen | ecb | syn | dbuf | obuf
  deriving DecidableEq, Repr

/-- One host access at the port (R13, R200).  `addr` is bus_addr, the bits [15:2] of the byte offset: the offset is
`4 * addr` (R207), and 32 bits is the only width (R206). -/
inductive Access where
  /-- MemRead(4 * addr, 4). -/
  | read (addr : BitVec 14)
  /-- MemWrite(4 * addr, 4, data). -/
  | write (addr : BitVec 14) (data : Word)
  deriving DecidableEq, Repr

/-- What the host does next: one access, or the `wait` of rule R308 (read STATUS until BUSY reads 0). -/
inductive HostOp where
  | access (a : Access)
  | wait
  deriving DecidableEq, Repr

/-- What the port answers in one step: bus_ready and bus_rdata (R200). -/
inductive Response where
  /-- bus_ready = 0: no access is performed in this step. -/
  | notReady
  /-- bus_ready = 1 for a write. -/
  | wrote
  /-- bus_ready = 1 for a read, with bus_rdata. -/
  | data (v : Word)
  deriving DecidableEq, Repr

/-- Who moves in a step: the host (one bus access), the engine (one completion step), or the reset pin (rst_n = 0)
(R14, R200, R212). -/
inductive Turn where
  | host
  | engine
  | reset
  deriving DecidableEq, Repr

/-- ENG, the engine's one state variable (R130). -/
inductive Engine where
  | idle
  /-- RUN(v), with v the 32-bit command word being executed. -/
  | run (v : Word)
  deriving DecidableEq, Repr

/-- The fault codes of rule R800 that name a cause.  They are recorded in STATUS and stop nothing (R831). -/
inductive FaultCode where
  | illegalCommand
  | logOfZero
  | bufRange
  | badLength
  | ecMismatch
  /-- Assigned, and raised by no rule (R705, R807). -/
  | lengthMismatch
  deriving DecidableEq, Repr

end Sys2Proof.Machine
end

