-- ==== Sys2Proof/Machine/State.lean ====
section
/-! DEFINITION. The state of GF256-RSIL: every register field (R111 to R129), the engine (R130), the buffers
(R141), and what stands at the port; with its reset (R160).

A register is held as its fields, each of the width the spec gives; the bits outside every field read 0 and ignore
writes (R110), so they are no state, and BUSY and FMT_BIT are computed (R130, R730) (DESIGN CHOICE, log entry 1).  ID and the field tables are
constants (R111, R150). -/

namespace Sys2Proof.Machine

/-- The buffers: (byte offset of the entry's word, entry) pairs in rising order, no entry 0 (R140, R141).  An
unlisted offset reads 0, the reset value of every entry (R160) (DESIGN CHOICE, log entry 7). -/
abbrev Memory := List Host.Cell

/-- The stored fields of STATUS (R113).  BUSY is computed from ENG (R130). -/
structure Status where
  /-- DONE, bit 1. -/
  done : Bool
  /-- FAULT, bit 2. -/
  fault : Bool
  /-- SYN_ZERO, bit 3. -/
  synZero : Bool
  /-- FAULT_CODE, bits [15:8]. -/
  faultCode : BitVec 8
  /-- FAULT_OP, bits [23:16]. -/
  faultOp : BitVec 8
  deriving DecidableEq, Repr

/-- The registers the host writes and no command does (R115 to R128). -/
structure OperandRegs where
  argA : BitVec 8
  argB : BitVec 8
  lenA : BitVec 9
  lenB : BitVec 9
  nLen : BitVec 8
  kLen : BitVec 8
  srcOff : BitVec 12
  total : BitVec 13
  dataTotal : BitVec 13
  blocks : BitVec 8
  fmtPtr : BitVec 16
  deriving DecidableEq, Repr

/-- The registers commands write and the host only reads (R117, R120, R127). -/
structure ResultRegs where
  result : BitVec 8
  prLen : BitVec 10
  outLen : BitVec 13
  deriving DecidableEq, Repr

/-- The block, and the outside it meets at its port. -/
structure State where
  /-- ENG (R130). -/
  eng : Engine
  /-- CTRL.IRQ_EN (R112). -/
  irqEn : Bool
  /-- STATUS (R113). -/
  status : Status
  /-- ARG_A, ARG_B, LEN_A, LEN_B, N_LEN, K_LEN, SRC_OFF, TOTAL, DATA_TOTAL, BLOCKS, FMT_PTR. -/
  ops : OperandRegs
  /-- RESULT, PR_LEN, OUT_LEN. -/
  res : ResultRegs
  /-- PA, PB, PR, GEN, ECB, SYN, DBUF, OBUF (R141). -/
  mem : Memory
  /-- bus_ready and bus_rdata of the step just taken (R200) (DESIGN CHOICE, log entry 10). -/
  resp : Response
  /-- The model's own: steps since the CMD write of the running command, for the bound of rule R131 (log entry 5). -/
  age : Nat
  /-- The model's own: what the host does next, first to last.  The head is the one outstanding access (R210)
  (DESIGN CHOICE, log entry 3). -/
  host : List HostOp
  /-- The model's own: who moves in the coming steps, which rule R212 leaves open (DESIGN CHOICE, log entry 4). -/
  turns : List Turn
  deriving DecidableEq, Repr

/-- STATUS after reset: every field 0 (R160). -/
def Status.reset : Status :=
  { done := false, fault := false, synZero := false, faultCode := 0, faultOp := 0 }

/-- The host-written registers after reset: 0 (R160). -/
def OperandRegs.reset : OperandRegs :=
  { argA := 0, argB := 0, lenA := 0, lenB := 0, nLen := 0, kLen := 0, srcOff := 0, total := 0, dataTotal := 0,
    blocks := 0, fmtPtr := 0 }

/-- The command-written registers after reset: 0 (R160). -/
def ResultRegs.reset : ResultRegs := { result := 0, prLen := 0, outLen := 0 }

/-- The block after a reset (R160, R902), with a host that asks for nothing yet (DESIGN CHOICE, log entry 3). -/
def State.reset : State :=
  { eng := .idle, irqEn := false, status := .reset, ops := .reset, res := .reset, mem := [], resp := .notReady,
    age := 0, host := [], turns := [] }

/-- Why the machine stops with a fault: never.  Every fault of the block is recorded in STATUS and the engine goes
back to IDLE (R801, R831), every access to the window has an effect (R203), and a command always completes (R131),
so the type has no constructor and no step can answer a fault (DEDUCED, log entry 2).  Safe: there is nothing to
raise. -/
inductive Fault where
  deriving DecidableEq, Repr

/-- Why a command has no meaning. -/
inductive Refusal where
  /-- Raised by `exec` alone, for a command whose meaning is not written (none is left).  Safe: the model stops where
  the hardware goes on. -/
  | notModelled (mnemonic : String)
  deriving DecidableEq, Repr

end Sys2Proof.Machine
end

