-- ==== Sys2Proof/Machine/Flags.lean ====
section
/-! DEFINITION. STATUS and the interrupt: what sets a flag, what clears it, the word STATUS reads as, the fault
codes and irq (R113, R132, R800, R830). -/

namespace Sys2Proof.Machine

/-- The value STATUS.FAULT_CODE records for a cause (R800). -/
def FaultCode.code : FaultCode → BitVec 8
  | .illegalCommand => 0x01
  | .logOfZero => 0x02
  | .bufRange => 0x03
  | .badLength => 0x04
  | .ecMismatch => 0x05
  | .lengthMismatch => 0x06

/-- STATUS after a fault-free completion: DONE set, the rest kept (R131, R132). -/
def Status.setDone (st : Status) : Status := { st with done := true }

/-- STATUS after a faulting completion: FAULT set, the code and the opcode byte recorded, the rest kept, DONE not
set (R131, R801); the most recent fault wins (R832). -/
def Status.setFault (st : Status) (c : FaultCode) (op : BitVec 8) : Status :=
  { st with fault := true, faultCode := c.code, faultOp := op }

/-- STATUS after a SYNDROME result (R615). -/
def Status.setSynZero (st : Status) (z : Bool) : Status := { st with synZero := z }

/-- STATUS after the host writes `v` to it: bit 1 clears DONE, bit 2 clears FAULT, nothing else changes (R113).
This is the acknowledgement of a fault; there is no other return from one (R832). -/
def Status.writeOneToClear (st : Status) (v : Word) : Status :=
  { st with done := st.done && !v.getLsbD 1, fault := st.fault && !v.getLsbD 2 }

/-- SYN_ZERO's rule: every computed syndrome is 0 (R615). -/
def allZero (xs : List Byte) : Bool := xs.all (· == 0)

/-- STATUS.BUSY: 1 exactly when ENG = RUN(v) (R130). -/
def State.busy (s : State) : Bool :=
  match s.eng with
  | .idle => false
  | .run _ => true

/-- The word a read of STATUS returns: FAULT_OP [23:16], FAULT_CODE [15:8], SYN_ZERO 3, FAULT 2, DONE 1, BUSY 0, the
rest 0 (R113). -/
def statusWord (s : State) : Word :=
  0#8 ++ s.status.faultOp ++ s.status.faultCode ++ 0#4 ++ BitVec.ofBool s.status.synZero
    ++ BitVec.ofBool s.status.fault ++ BitVec.ofBool s.status.done ++ BitVec.ofBool s.busy

/-- The interrupt output, a level: IRQ_EN and (DONE or FAULT) (R830). -/
def State.irq (s : State) : Bool := s.irqEn && (s.status.done || s.status.fault)

end Sys2Proof.Machine
end

