-- ==== Sys2Proof/Machine/Ops.lean ====
section
/-! DEFINITION. The operations every meaning shares: the buffers, completing a command, and ending one in a fault
(the block's only exception). -/

namespace Sys2Proof.Machine

/-! ## The buffers -/

/-- The byte offset of entry 0 of a buffer (R141). -/
def Buf.base : Buf → Nat
  | .pa => 0x1000
  | .pb => 0x1400
  | .pr => 0x1800
  | .gen => 0x2000
  | .ecb => 0x2400
  | .syn => 0x2800
  | .dbuf => 0x4000
  | .obuf => 0x8000

/-- The entries of a buffer (R8, R141). -/
def Buf.size : Buf → Nat
  | .pa => Config.polyMax
  | .pb => Config.polyMax
  | .pr => Config.prSize
  | .gen => Config.polyMax
  | .ecb => Config.polyMax
  | .syn => Config.polyMax
  | .dbuf => Config.bufSize
  | .obuf => Config.bufSize

/-- Whether a host write to the buffer is performed: RW and not RO (R141). -/
def Buf.hostWrites : Buf → Bool
  | .pa => true
  | .pb => true
  | .pr => false
  | .gen => false
  | .ecb => true
  | .syn => false
  | .dbuf => true
  | .obuf => false

/-- The byte offset of the word that holds entry `i` (R140). -/
def Buf.offset (b : Buf) (i : Nat) : Nat := b.base + 4 * i

/-- The entry at a byte offset; an unlisted one is 0, as reset left it (R160). -/
def Memory.read : Memory → Nat → Byte
  | [], _ => 0
  | (a, v) :: m, x => if a = x then v else Memory.read m x

/-- Store one entry, keeping the canonical form: rising offsets, no entry 0. -/
def Memory.write : Memory → Nat → Byte → Memory
  | [], x, v => if v = 0 then [] else [(x, v)]
  | (a, w) :: m, x, v =>
    if x < a then (if v = 0 then (a, w) :: m else (x, v) :: (a, w) :: m)
    else if x = a then (if v = 0 then m else (a, v) :: m)
    else (a, w) :: Memory.write m x v

/-- The cells of consecutive entries from byte offset `o` on: one word each (R140), zero entries left out. -/
def Memory.cells : Nat → List Byte → Memory
  | _, [] => []
  | o, v :: vs => if v = 0 then Memory.cells (o + 4) vs else (o, v) :: Memory.cells (o + 4) vs

/-- Replace all `n` words from byte offset `o` on: the first ones hold `vs`, the rest 0. -/
def Memory.fill (m : Memory) (o n : Nat) (vs : List Byte) : Memory :=
  m.filter (fun c => c.1 < o) ++ Memory.cells o (vs.take n) ++ m.filter (fun c => o + 4 * n ≤ c.1)

/-- The canonical form of a memory: offsets strictly rising, no entry equal to the 0 an unlisted one reads as. -/
abbrev Memory.wf (m : Memory) : Prop :=
  (m.map Prod.fst).Pairwise (· < ·) ∧ ∀ c ∈ m, c.2 ≠ 0

/-- Entry `i` of a buffer (R140, R202). -/
def State.entry (s : State) (b : Buf) (i : Nat) : Byte := Memory.read s.mem (b.offset i)

/-- Entries `i`, `i + 1`, …, `i + n - 1` of a buffer, in order (R202). -/
def State.entries (s : State) (b : Buf) (i n : Nat) : List Byte :=
  (List.range n).map fun j => s.entry b (i + j)

/-- The host stores one entry (R140). -/
def State.setEntry (s : State) (b : Buf) (i : Nat) (v : Byte) : State :=
  { s with mem := Memory.write s.mem (b.offset i) v }

/-- A command writes a whole result buffer: `vs` from entry 0 on, and 0 in every later entry (D11; R510, R520, R605,
R615, R720). -/
def State.setBuf (s : State) (b : Buf) (vs : List Byte) : State :=
  { s with mem := Memory.fill s.mem b.base b.size vs }

/-! ## The end of a command -/

/-- ENG <- IDLE, the end of every completion step (R131). -/
def State.toIdle (s : State) : State := { s with eng := .idle, age := 0 }

/-- The block with DONE set and the engine idle, after a fault-free completion (R131). -/
def State.withDone (s : State) : State := { s.toIdle with status := s.status.setDone }

/-- The block with a fault recorded and the engine idle: FAULT, FAULT_CODE and FAULT_OP, and nothing else (R801). -/
def State.withFault (s : State) (c : FaultCode) (op : BitVec 8) : State :=
  { s.toIdle with status := s.status.setFault c op }

/-- A fault-free completion: every write of the command is already made in `s` (R131). -/
def retire (s : State) : Host.Outcome State Fault Refusal := .next s.withDone

/-- Taking an exception: `raise Fault(c)` in the command whose opcode byte is `op` (R801).  The block never transfers
control, saves no pc and changes no mode (R831): the next command runs. -/
def raiseFault (c : FaultCode) (op : BitVec 8) (s : State) : Host.Outcome State Fault Refusal :=
  .next (s.withFault c op)

/-- A word that decodes to no command raises ILLEGAL_COMMAND with its low byte as FAULT_OP (R300, R802). -/
def illegalCommand (v : Word) (s : State) : Host.Outcome State Fault Refusal :=
  raiseFault .illegalCommand (v.extractLsb' 0 8) s

/-- The first failing check of a list names the fault (R305, R810). -/
def firstFailing : List (Bool × FaultCode) → Option FaultCode
  | [] => none
  | (true, c) :: _ => some c
  | (false, _) :: cs => firstFailing cs

/-- The phases of a command after its decode (R305): the operand checks in order, then the writes and DONE. -/
def runChecked (op : BitVec 8) (checks : List (Bool × FaultCode)) (effect : State → State) (s : State) :
    Host.Outcome State Fault Refusal :=
  match firstFailing checks with
  | some c => raiseFault c op s
  | none => retire (effect s)

/-! ## Reset and the passing of a step -/

/-- The reset of rule R900, by either source: every register, buffer and flag takes its value of rule R160 and the
engine is idle.  What the host asks for next, and who moves next, are outside the block and stay. -/
def State.resetBlock (s : State) : State := { State.reset with host := s.host, turns := s.turns }

/-- What passes in every step, whoever moves: one turn is taken, the port has not answered yet, and a running command
is one step older. -/
def State.tick (s : State) : State :=
  { s with turns := s.turns.tail, resp := .notReady, age := if s.busy then s.age + 1 else s.age }

end Sys2Proof.Machine
end

