-- ==== Sys2Proof/Machine/Operands.lean ====
section
/-! DEFINITION. The operands of rule R302.  A command word carries none: each is a register field, zero-extended and
read as an unsigned integer, or a run of buffer entries.  There is no sign extension, scaling or shifting. -/

namespace Sys2Proof.Machine

/-- a = x[ARG_A][7:0]. -/
def opA (s : State) : Byte := s.ops.argA

/-- b = x[ARG_B][7:0]. -/
def opB (s : State) : Byte := s.ops.argB

/-- la = x[LEN_A][8:0]. -/
def opLa (s : State) : Nat := s.ops.lenA.toNat

/-- lb = x[LEN_B][8:0]. -/
def opLb (s : State) : Nat := s.ops.lenB.toNat

/-- n = x[N_LEN][7:0]. -/
def opN (s : State) : Nat := s.ops.nLen.toNat

/-- k = x[K_LEN][7:0]. -/
def opK (s : State) : Nat := s.ops.kLen.toNat

/-- s = x[SRC_OFF][11:0]. -/
def opS (s : State) : Nat := s.ops.srcOff.toNat

/-- T = x[TOTAL][12:0]. -/
def opT (s : State) : Nat := s.ops.total.toNat

/-- D = x[DATA_TOTAL][12:0]. -/
def opD (s : State) : Nat := s.ops.dataTotal.toNat

/-- B = x[BLOCKS][7:0]. -/
def opB' (s : State) : Nat := s.ops.blocks.toNat

/-- PA[0..la-1], the first factor of POLY_MUL (R510). -/
def polyA (s : State) : List Byte := s.entries .pa 0 (opLa s)

/-- PB[0..lb-1], the second factor of POLY_MUL (R510). -/
def polyB (s : State) : List Byte := s.entries .pb 0 (opLb s)

/-- DBUF[s..s+n-1], the data block of RS_ENCODE and SYNDROME (R605, R615).  The only index made from a register
(R202). -/
def dataBlock (s : State) : List Byte := s.entries .dbuf (opS s) (opN s)

/-- The codeword of SYNDROME: the data block, then ECB[0..k-1] (R615). -/
def codeword (s : State) : List Byte := dataBlock s ++ s.entries .ecb 0 (opK s)

/-- DBUF[0..D-1], the data of INTERLEAVE (R720). -/
def symbolData (s : State) : List Byte := s.entries .dbuf 0 (opD s)

end Sys2Proof.Machine
end

