-- ==== Sys2Proof/Machine/Gf.lean ====
section
/-! DEFINITION. GF(256): the field tables, the arithmetic (R400 to R407) and the scalar commands (R410 to R415).

The tables are constants built by rule R401, valid from power-on and not affected by reset (R150, R903). -/

namespace Sys2Proof.Machine

/-- One doubling of rule R401: shift left to 9 bits, reduce by PRIM when the value reaches 256. -/
def gfDouble (x : Byte) : Byte :=
  if 256 ≤ 2 * x.toNat then ((x.setWidth 9 <<< 1) ^^^ Config.prim).setWidth 8
  else (x.setWidth 9 <<< 1).setWidth 8

/-- `n` table entries from the value `x` on, each the double of the one before (R401). -/
def expFrom : Nat → Byte → List Byte
  | 0, _ => []
  | n + 1, x => x :: expFrom n (gfDouble x)

/-- EXP[0..255] (R401). -/
def expTable : List Byte := expFrom Config.size 1

/-- EXP[i].  The table has the indices 0..255 and every rule reads it there; the 0 beyond is never read (DESIGN CHOICE,
log entry 11). -/
def gfExp (i : Nat) : Byte := expTable.getD i 0

/-- The index, counted from `i`, of the first entry equal to `a`. -/
def indexFrom : List Byte → Nat → Byte → Option Nat
  | [], _, _ => none
  | x :: xs, i, a => if x = a then some i else indexFrom xs (i + 1) a

/-- LOG[a], the i in 0..254 with EXP[i] = a; there is no entry for a = 0 (R403). -/
def gfLog (a : Byte) : Option Nat := if a = 0 then none else indexFrom (expTable.take (Config.size - 1)) 0 a

/-- a ⊕ b, which is also a − b (R405). -/
def gfAdd (a b : Byte) : Byte := a ^^^ b

/-- a ⊗ b (R406): the zero test comes first, so LOG[0] is never read (R803). -/
def gfMul (a b : Byte) : Byte :=
  if a = 0 ∨ b = 0 then 0
  else
    match gfLog a, gfLog b with
    | some i, some j => gfExp ((i + j) % (Config.size - 1))
    | _, _ => 0

/-- inv(a) = EXP[255 − LOG[a]]; none for a = 0 (R407). -/
def gfInv (a : Byte) : Option Byte := (gfLog a).map fun i => gfExp (Config.size - 1 - i)

/-- The ⊕-sum of a sequence, 0 for an empty one (R10). -/
def gfSum (xs : List Byte) : Byte := xs.foldr gfAdd 0

/-- RESULT <- r (R117). -/
def State.setResult (s : State) (r : Byte) : State := { s with res := { s.res with result := r } }

/-- NOP: no write, DONE (R410). -/
def execNop (s : State) : Host.Outcome State Fault Refusal := retire s

/-- GF_ADD: RESULT <- a ⊕ b (R411). -/
def execGfAdd (s : State) : Host.Outcome State Fault Refusal := retire (s.setResult (gfAdd (opA s) (opB s)))

/-- GF_MUL: RESULT <- a ⊗ b (R412). -/
def execGfMul (s : State) : Host.Outcome State Fault Refusal := retire (s.setResult (gfMul (opA s) (opB s)))

/-- GF_INV: RESULT <- inv(a), or LOG_OF_ZERO when a = 0 (R413). -/
def execGfInv (s : State) : Host.Outcome State Fault Refusal :=
  match gfInv (opA s) with
  | none => raiseFault .logOfZero 0x03 s
  | some r => retire (s.setResult r)

/-- GF_EXP: RESULT <- EXP[i], i = ARG_A, any of 0..255 (R414). -/
def execGfExp (s : State) : Host.Outcome State Fault Refusal := retire (s.setResult (gfExp (opA s).toNat))

/-- GF_LOG: RESULT <- LOG[a], or LOG_OF_ZERO when a = 0 (R415). -/
def execGfLog (s : State) : Host.Outcome State Fault Refusal :=
  match gfLog (opA s) with
  | none => raiseFault .logOfZero 0x05 s
  | some i => retire (s.setResult (BitVec.ofNat 8 i))

end Sys2Proof.Machine
end

