-- ==== Sys2Proof/Machine/Polynomial.lean ====
section
/-! DEFINITION. Polynomials over GF(256) and the two commands on them (R500 to R520).  A polynomial is the list of
its coefficients, highest power first (R11, R500); leading zeros are kept. -/

namespace Sys2Proof.Machine

/-- The indices from `lo` to `hi`, both included; none when `hi < lo`. -/
def indices (lo hi : Nat) : List Nat := List.range' lo (hi + 1 - lo)

/-- Coefficient `i` of the product: the ⊕-sum over j from max(0, i-lb+1) to min(i, la-1) of A[j] ⊗ B[i-j] (R501). -/
def polyMulCoeff (A B : List Byte) (i : Nat) : Byte :=
  gfSum ((indices (i + 1 - B.length) (min i (A.length - 1))).map fun j => gfMul (A.getD j 0) (B.getD (i - j) 0))

/-- The product array A · B, of length la + lb − 1 (R501). -/
def polyMul (A B : List Byte) : List Byte := (List.range (A.length + B.length - 1)).map (polyMulCoeff A B)

/-- The generator polynomial g_k, of length k + 1: the product of the factors [1, EXP[i]] for i = 0..k−1 in that
order, starting from [1] (R502). -/
def genPoly (k : Nat) : List Byte :=
  (List.range k).foldl (fun g i => polyMul g [1, gfExp (Config.genBase + i)]) [1]

/-- The checks of POLY_MUL, in order (R510, R810). -/
def polyMulChecks (s : State) : List (Bool × FaultCode) :=
  [ (decide (opLa s < 1 ∨ opLa s > Config.polyMax), .badLength),
    (decide (opLb s < 1 ∨ opLb s > Config.polyMax), .badLength) ]

/-- POLY_MUL: PR <- PA[0..la-1] · PB[0..lb-1], 0 after it, and PR_LEN <- la + lb − 1 (R510). -/
def execPolyMul (s : State) : Host.Outcome State Fault Refusal :=
  runChecked 0x10 (polyMulChecks s)
    (fun s =>
      { s.setBuf .pr (polyMul (polyA s) (polyB s)) with
        res := { s.res with prLen := BitVec.ofNat 10 (opLa s + opLb s - 1) } })
    s

/-- The check of RS_GENPOLY (R520, R810). -/
def genPolyChecks (s : State) : List (Bool × FaultCode) := [ (decide (opK s < 1), .badLength) ]

/-- RS_GENPOLY: GEN <- g_k, 0 after it (R520). -/
def execRsGenpoly (s : State) : Host.Outcome State Fault Refusal :=
  runChecked 0x11 (genPolyChecks s) (fun s => s.setBuf .gen (genPoly (opK s))) s

end Sys2Proof.Machine
end

