-- ==== Sys2Proof/Machine/ReedSolomon.lean ====
section
/-! DEFINITION. The Reed-Solomon encoder and the syndrome generator (R600 to R615). -/

namespace Sys2Proof.Machine

/-- One data byte through the shift register of rule R602: fb <- d ⊕ r[0]; r[j] <- r[j+1] ⊕ (fb ⊗ g[j+1]) for
j ≤ k−2; r[k-1] <- fb ⊗ g[k]. -/
def ecStep (g r : List Byte) (d : Byte) : List Byte :=
  List.zipWith (fun x c => gfAdd x (gfMul (gfAdd d (r.headD 0)) c)) (r.tail ++ [0]) g.tail

/-- The EC bytes of a data block: the k coefficients of the remainder of d(x) · x^k by g_k (R601), computed by the
shift register of rule R602. -/
def ecBytes (d : List Byte) (k : Nat) : List Byte := d.foldl (ecStep (genPoly k)) (List.replicate k 0)

/-- One codeword byte through the k accumulators of rule R611: acc[j] <- (acc[j] ⊗ EXP[j]) ⊕ c, all j at once. -/
def synStep (acc : List Byte) (c : Byte) : List Byte :=
  List.zipWith (fun x e => gfAdd (gfMul x e) c) acc (expTable.take acc.length)

/-- The syndromes S_0 … S_(k−1) of a codeword (R610), by Horner's rule (R611). -/
def syndromes (c : List Byte) (k : Nat) : List Byte := c.foldl synStep (List.replicate k 0)

/-- The checks of RS_ENCODE and of SYNDROME, in order (R605, R615, R810). -/
def rsChecks (s : State) : List (Bool × FaultCode) :=
  [ (decide (opN s < 1), .badLength),
    (decide (opK s < 1), .badLength),
    (decide (opN s + opK s > Config.cwMax), .badLength),
    (decide (opS s + opN s > Config.bufSize), .bufRange) ]

/-- RS_ENCODE: GEN <- g_k and ECB <- the EC bytes of DBUF[s..s+n-1], each 0 after its end (R605). -/
def execRsEncode (s : State) : Host.Outcome State Fault Refusal :=
  runChecked 0x20 (rsChecks s)
    (fun s => (s.setBuf .gen (genPoly (opK s))).setBuf .ecb (ecBytes (dataBlock s) (opK s)))
    s

/-- SYNDROME: SYN <- the syndromes of DBUF[s..s+n-1] ++ ECB[0..k-1], 0 after them, and SYN_ZERO (R615). -/
def execSyndrome (s : State) : Host.Outcome State Fault Refusal :=
  runChecked 0x21 (rsChecks s)
    (fun s =>
      { s.setBuf .syn (syndromes (codeword s) (opK s)) with
        status := s.status.setSynZero (allZero (syndromes (codeword s) (opK s))) })
    s

end Sys2Proof.Machine
end

