-- ==== Sys2Proof/Machine/Interleave.lean ====
section
/-! DEFINITION. The block interleaver (R700 to R720) and the codeword formatter (R730). -/

namespace Sys2Proof.Machine

/-- The number of group-2 blocks: T mod B (R700). -/
def group2 (T B : Nat) : Nat := T % B

/-- The number of group-1 blocks: B − g2 (R700). -/
def group1 (T B : Nat) : Nat := B - group2 T B

/-- The EC bytes of every block: e = t1 − d1 = T div B − D div B (R700). -/
def ecPerBlock (T D B : Nat) : Nat := T / B - D / B

/-- n_b, the data bytes of block b: d1 in group 1, d1 + 1 in group 2; group 1 comes first (R700, R701). -/
def blockSize (T D B b : Nat) : Nat := if b < group1 T B then D / B else D / B + 1

/-- n_0 … n_(B−1). -/
def blockSizes (T D B : Nat) : List Nat := (List.range B).map (blockSize T D B)

/-- Consecutive runs of a sequence, of the given sizes (R701). -/
def splitRuns : List Nat → List Byte → List (List Byte)
  | [], _ => []
  | n :: ns, d => d.take n :: splitRuns ns (d.drop n)

/-- Byte i of every block that has one, in block order; an exhausted block contributes nothing (R704). -/
def column (blocks : List (List Byte)) (i : Nat) : List Byte := blocks.filterMap (·[i]?)

/-- The columns 0 … len − 1, one after the other (R704). -/
def columns (blocks : List (List Byte)) (len : Nat) : List Byte := (List.range len).flatMap (column blocks)

/-- The data bytes of every block (R701). -/
def dataBlocks (T D B : Nat) (d : List Byte) : List (List Byte) := splitRuns (blockSizes T D B) d

/-- The EC bytes of every block, each encoded on its own (R703). -/
def ecBlocks (T D B : Nat) (d : List Byte) : List (List Byte) :=
  (dataBlocks T D B d).map fun blk => ecBytes blk (ecPerBlock T D B)

/-- The final codeword sequence: the data columns, as many as the longest block has, then the EC columns (R704). -/
def interleave (T D B : Nat) (d : List Byte) : List Byte :=
  columns (dataBlocks T D B d) ((blockSizes T D B).foldr max 0) ++ columns (ecBlocks T D B d) (ecPerBlock T D B)

/-- The checks of INTERLEAVE, in order (R720, R810). -/
def interleaveChecks (s : State) : List (Bool × FaultCode) :=
  [ (decide (opB' s < 1), .badLength),
    (decide (opT s > Config.bufSize), .badLength),
    (decide (opD s < opB' s), .badLength),
    (decide (opD s ≥ opT s), .badLength),
    (decide (opT s / opB' s + (if opT s % opB' s > 0 then 1 else 0) > Config.cwMax), .badLength),
    (decide ((opT s - opD s) % opB' s ≠ 0), .ecMismatch) ]

/-- INTERLEAVE: OBUF <- the interleaved codewords of DBUF[0..D-1], 0 after them, and OUT_LEN <- T (R720). -/
def execInterleave (s : State) : Host.Outcome State Fault Refusal :=
  runChecked 0x30 (interleaveChecks s)
    (fun s =>
      { s.setBuf .obuf (interleave (opT s) (opD s) (opB' s) (symbolData s)) with
        res := { s.res with outLen := BitVec.ofNat 13 (opT s) } })
    s

/-- FMT_BIT: bit 7 − p mod 8 of OBUF[p div 8] for p = FMT_PTR < 8 · OUT_LEN, else 0 (R730). -/
def fmtBit (s : State) : Bool :=
  if s.ops.fmtPtr.toNat < 8 * s.res.outLen.toNat then
    (s.entry .obuf (s.ops.fmtPtr.toNat / 8)).getLsbD (7 - s.ops.fmtPtr.toNat % 8)
  else false

end Sys2Proof.Machine
end

