-- ==== Sys2Proof/Machine/Bus.lean ====
section
/-! DEFINITION. The host's side of the port: which word an offset names (R201), what a read returns and what a write
does (R110 to R129, R140, R203, R208), and which accesses a running command holds (R210). -/

namespace Sys2Proof.Machine

/-! ## The address map -/

/-- What a word of the window is (R201). -/
inductive Target where
  | reg (r : Reg)
  | entry (b : Buf) (i : Nat)
  | reserved
  deriving DecidableEq, Repr

/-- The registers in the order of their words: register j is the word at offset 4 · j (R111 to R129). -/
def allRegs : List Reg :=
  [ .id, .ctrl, .status, .cmd, .argA, .argB, .result, .lenA, .lenB, .prLen, .nLen, .kLen, .srcOff, .total,
    .dataTotal, .blocks, .outLen, .fmtPtr, .fmtBit ]

/-- The buffers in the order of their offsets (R141). -/
def allBufs : List Buf := [ .pa, .pb, .pr, .gen, .ecb, .syn, .dbuf, .obuf ]

/-- The byte offset of a register (R111 to R129). -/
def Reg.offset : Reg → Nat
  | .id => 0x000
  | .ctrl => 0x004
  | .status => 0x008
  | .cmd => 0x00C
  | .argA => 0x010
  | .argB => 0x014
  | .result => 0x018
  | .lenA => 0x01C
  | .lenB => 0x020
  | .prLen => 0x024
  | .nLen => 0x028
  | .kLen => 0x02C
  | .srcOff => 0x030
  | .total => 0x034
  | .dataTotal => 0x038
  | .blocks => 0x03C
  | .outLen => 0x040
  | .fmtPtr => 0x044
  | .fmtBit => 0x048

/-- Whether a byte offset lies in a buffer. -/
def Buf.covers (b : Buf) (off : Nat) : Bool := b.base ≤ off && off < b.base + 4 * b.size

/-- The byte offset of an access: the word address with two 0 bits below it (R207). -/
def byteOffset (addr : BitVec 14) : Nat := 4 * addr.toNat

/-- The map of rule R201, from a word address to what is there. -/
def target (addr : BitVec 14) : Target :=
  match allRegs.find? (fun r => r.offset == byteOffset addr) with
  | some r => .reg r
  | none =>
    match allBufs.find? (fun b => b.covers (byteOffset addr)) with
    | some b => .entry b ((byteOffset addr - b.base) / 4)
    | none => .reserved

/-- The word address of a byte offset: its bits [15:2] (R200, R207). -/
def wordAddr (off : Nat) : BitVec 14 := BitVec.ofNat 14 (off / 4)

/-- The word address a platform address reaches, when it lies in the window at BASE (R201).  Bits [1:0] of the offset
are not on the port, so the access goes to the aligned word containing it (R207). -/
def platformAddr (a : Nat) : Option (BitVec 14) :=
  if Config.base ≤ a ∧ a < Config.base + Config.window then some (wordAddr (a - Config.base)) else none

/-! ## Reads: no side effect (R208) -/

/-- ID: "GF8" and the command-set revision 1 (R111). -/
def idWord : Word := 0x47463801#32

/-- CTRL reads IRQ_EN in bit 1; SOFT_RESET reads 0 (R112). -/
def ctrlWord (s : State) : Word := 0#30 ++ BitVec.ofBool s.irqEn ++ 0#1

/-- The word a register reads as: its field, zero-extended (R110 to R129). -/
def readReg (r : Reg) (s : State) : Word :=
  match r with
  | .id => idWord
  | .ctrl => ctrlWord s
  | .status => statusWord s
  | .cmd => 0
  | .argA => s.ops.argA.setWidth 32
  | .argB => s.ops.argB.setWidth 32
  | .result => s.res.result.setWidth 32
  | .lenA => s.ops.lenA.setWidth 32
  | .lenB => s.ops.lenB.setWidth 32
  | .prLen => s.res.prLen.setWidth 32
  | .nLen => s.ops.nLen.setWidth 32
  | .kLen => s.ops.kLen.setWidth 32
  | .srcOff => s.ops.srcOff.setWidth 32
  | .total => s.ops.total.setWidth 32
  | .dataTotal => s.ops.dataTotal.setWidth 32
  | .blocks => s.ops.blocks.setWidth 32
  | .outLen => s.res.outLen.setWidth 32
  | .fmtPtr => s.ops.fmtPtr.setWidth 32
  | .fmtBit => (BitVec.ofBool (fmtBit s)).setWidth 32

/-- MemRead (R13): the word at an address.  An entry is in bits [7:0] (R140); a reserved word reads 0 (R203). -/
def busRead (addr : BitVec 14) (s : State) : Word :=
  match target addr with
  | .reg r => readReg r s
  | .entry b i => (s.entry b i).setWidth 32
  | .reserved => 0

/-! ## Writes -/

/-- A write to CTRL: with bit 0 = 1 the reset, and the other bits are ignored; with bit 0 = 0, IRQ_EN <- bit 1
(R112, R901). -/
def writeCtrl (v : Word) (s : State) : State :=
  if v.getLsbD 0 then s.resetBlock else { s with irqEn := v.getLsbD 1 }

/-- A write to STATUS (R113). -/
def writeStatus (v : Word) (s : State) : State := { s with status := s.status.writeOneToClear v }

/-- A write to CMD starts command `v`: ENG <- RUN(v) (R114, R130). -/
def startCommand (v : Word) (s : State) : State := { s with eng := .run v, age := 0 }

/-- A write to an operand register takes the written bits of its field's range, in range or not; any other register
keeps the operand registers as they are (R110, R115 to R128). -/
def OperandRegs.write (o : OperandRegs) (r : Reg) (v : Word) : OperandRegs :=
  match r with
  | .argA => { o with argA := v.setWidth 8 }
  | .argB => { o with argB := v.setWidth 8 }
  | .lenA => { o with lenA := v.setWidth 9 }
  | .lenB => { o with lenB := v.setWidth 9 }
  | .nLen => { o with nLen := v.setWidth 8 }
  | .kLen => { o with kLen := v.setWidth 8 }
  | .srcOff => { o with srcOff := v.setWidth 12 }
  | .total => { o with total := v.setWidth 13 }
  | .dataTotal => { o with dataTotal := v.setWidth 13 }
  | .blocks => { o with blocks := v.setWidth 8 }
  | .fmtPtr => { o with fmtPtr := v.setWidth 16 }
  | .id | .ctrl | .status | .cmd | .result | .prLen | .outLen | .fmtBit => o

/-- A host write to a register (R110 to R129): CTRL, STATUS and CMD have their own effect, an RO register ignores
it. -/
def writeReg (r : Reg) (v : Word) (s : State) : State :=
  match r with
  | .ctrl => writeCtrl v s
  | .status => writeStatus v s
  | .cmd => startCommand v s
  | .argA | .argB | .lenA | .lenB | .nLen | .kLen | .srcOff | .total | .dataTotal | .blocks | .fmtPtr =>
    { s with ops := s.ops.write r v }
  | .id | .result | .prLen | .outLen | .fmtBit => s

/-- MemWrite (R13).  A RW buffer stores bits [7:0] (R140); a RO buffer and a reserved word ignore the write (R141,
R203). -/
def busWrite (addr : BitVec 14) (v : Word) (s : State) : State :=
  match target addr with
  | .reg r => writeReg r v s
  | .entry b i => if b.hostWrites then s.setEntry b i (v.setWidth 8) else s
  | .reserved => s

/-! ## One host access -/

/-- The word address an access names. -/
def Access.addr : Access → BitVec 14
  | .read a => a
  | .write a _ => a

/-- Whether the block holds an access (R210): while a command runs, every offset but ID, CTRL and STATUS. -/
def held (a : Access) (s : State) : Bool :=
  s.busy && byteOffset a.addr != Reg.id.offset && byteOffset a.addr != Reg.ctrl.offset
    && byteOffset a.addr != Reg.status.offset

/-- An access, performed (R200, R208): its effect, and the port's answer. -/
def perform (a : Access) (s : State) : State :=
  match a with
  | .read addr => { s with resp := .data (busRead addr s) }
  | .write addr v => { busWrite addr v s with resp := .wrote }

/-- The access a host operation presents: `wait` reads STATUS (R308). -/
def HostOp.access' : HostOp → Access
  | .access a => a
  | .wait => .read (wordAddr Reg.status.offset)

/-- Whether the host presents the operation again after it was performed: `wait` does while BUSY reads 1 (R308). -/
def HostOp.again (op : HostOp) (s : State) : Bool :=
  match op with
  | .access _ => false
  | .wait => s.busy

/-- The host's turn: its first operation is performed, or is held and stays the outstanding one (R210); a host that
asks for nothing leaves the block as it is. -/
def hostTurn (s : State) : State :=
  match s.host with
  | [] => s
  | op :: rest =>
    if held op.access' s then s
    else { perform op.access' s with host := if op.again s then op :: rest else rest }

/-! ## Who moves -/

/-- Whether the host's next access is a soft reset: a CTRL write with bit 0 = 1 (R112, R900). -/
def resetAsked (s : State) : Bool :=
  match s.host with
  | .access (.write addr v) :: _ => byteOffset addr == Reg.ctrl.offset && v.getLsbD 0
  | _ => false

/-- Whether a completion is due: the running command has only this step left of its MAX_LATENCY (R131, R921). -/
def completionDue (s : State) : Bool := s.busy && decide (Config.maxLatency ≤ s.age + 1)

/-- Who moves in this step.  The order of accesses and completions is open (R212), so it is an input of State; a
command at its bound completes (R131), but a reset, by the pin or by the host's CTRL write, takes precedence over a due
completion and cancels it (R820, R900).  When no turn is listed, a running command completes unless the host asks for a
reset, and an idle block serves the host (DESIGN CHOICE, log entry 4). -/
def whoMoves (s : State) : Turn :=
  match s.turns with
  | .reset :: _ => .reset
  | .engine :: _ => .engine
  | .host :: _ => if completionDue s && !resetAsked s then .engine else .host
  | [] => if s.busy && !resetAsked s then .engine else .host

end Sys2Proof.Machine
end

