-- ==== Sys2Proof/Machine/Dispatch.lean ====
section
/-! DEFINITION. The completion step of each command (R131): one direct call of its meaning. -/

namespace Sys2Proof.Machine

def exec (i : Instr) (s : State) : Host.Outcome State Fault Refusal :=
  match i with
  | .nop => Sys2Proof.Machine.execNop s
  | .gfAdd => Sys2Proof.Machine.execGfAdd s
  | .gfMul => Sys2Proof.Machine.execGfMul s
  | .gfInv => Sys2Proof.Machine.execGfInv s
  | .gfExp => Sys2Proof.Machine.execGfExp s
  | .gfLog => Sys2Proof.Machine.execGfLog s
  | .polyMul => Sys2Proof.Machine.execPolyMul s
  | .rsGenpoly => Sys2Proof.Machine.execRsGenpoly s
  | .rsEncode => Sys2Proof.Machine.execRsEncode s
  | .syndrome => Sys2Proof.Machine.execSyndrome s
  | .interleave => Sys2Proof.Machine.execInterleave s

end Sys2Proof.Machine
end

