-- ==== Sys2Proof/Machine/Step.lean ====
section
/-! DEFINITION. One step of the machine: one host access, one completion step, or one reset (R14, R131, R212).

The block fetches nothing (R101, R215): the command that runs is the value of the CMD write, held in ENG. -/

namespace Sys2Proof.Machine

/-- The completion step of the command word `v` (R131, R305): its decode, then its rule. -/
def complete (v : Word) (s : State) : Host.Outcome State Fault Refusal :=
  match decode v with
  | .command i => exec i s
  | .illegal _ => illegalCommand v s

/-- The engine's turn: a running command completes; an idle engine has nothing to do (R130). -/
def engineTurn (s : State) : Host.Outcome State Fault Refusal :=
  match s.eng with
  | .run v => complete v s
  | .idle => .next s

/-- One step. -/
def step (s : State) : Host.Outcome State Fault Refusal :=
  match whoMoves s with
  | .reset => .next s.tick.resetBlock
  | .engine => engineTurn s.tick
  | .host => .next (hostTurn s.tick)

/-- `s` with the command word `w` of `nbits` bits in ENG, as a CMD write puts it there (R114), and the engine to move:
the next step is that command's completion.  The block loads no program (R101): what runs is the last word the host
wrote to CMD. -/
def State.withFetchWord (s : State) (nbits w : Nat) : State :=
  { s with eng := .run (tableWord nbits w), age := 0, turns := .engine :: s.turns }

end Sys2Proof.Machine
end

