-- ==== Sys2Proof/Safety.lean ====
section
/-! DEFINITION. What claims about runs are stated in: the invariant of the block's state, and a safe run. -/

namespace Sys2Proof.Machine

/-- The offset is the word of a buffer entry (R140, R141). -/
def entryOffset (off : Nat) : Bool := off % 4 == 0 && allBufs.any (·.covers off)

/-- What holds of the block after reset and after every step. -/
structure Inv (s : State) : Prop where
  /-- The buffers are in their canonical form. -/
  canonical : Memory.wf s.mem
  /-- Only buffer entries are stored: no state lies behind a register or a reserved word (R203). -/
  onlyEntries : ∀ c ∈ s.mem, entryOffset c.1 = true
  /-- FAULT_CODE holds a code some rule raises, or the reset value 0; never LENGTH_MISMATCH (R800, R807). -/
  code : s.status.faultCode.toNat ≤ 5
  /-- FAULT = 1 only with a recorded cause (R801). -/
  cause : s.status.fault = true → s.status.faultCode ≠ 0
  /-- Before the first fault FAULT_OP holds its reset value (R113, R160). -/
  noOp : s.status.faultCode = 0 → s.status.faultOp = 0
  /-- PR holds one product: nothing after its PR_LEN coefficients (R510, D11). -/
  product : ∀ i, s.res.prLen.toNat ≤ i → i < Buf.pr.size → s.entry .pr i = 0
  /-- PR_LEN is at most 511 (R510). -/
  productLen : s.res.prLen.toNat ≤ 511
  /-- OBUF holds one codeword sequence: nothing after its OUT_LEN codewords (R720, D11). -/
  output : ∀ i, s.res.outLen.toNat ≤ i → i < Buf.obuf.size → s.entry .obuf i = 0
  /-- OUT_LEN is at most BUF_SIZE (R720). -/
  outputLen : s.res.outLen.toNat ≤ Config.bufSize
  /-- SYN_ZERO = 1 says that every syndrome SYN holds is 0 (R615). -/
  syndromes : s.status.synZero = true → ∀ i, i < Buf.syn.size → s.entry .syn i = 0
  /-- A running command is within its MAX_LATENCY (R131, R921). -/
  latency : s.busy = true → s.age < Config.maxLatency

/-- `n` steps from `s`. -/
def stepsFrom (n : Nat) (s : State) : Host.Outcome State Fault Refusal := Host.Core.run core n s

/-- A run of `n` steps from `s` is safe: it ends in a state, not in a fault or a refusal. -/
def SafeRun (n : Nat) (s : State) : Prop := ∃ t, stepsFrom n s = .next t

end Sys2Proof.Machine
end

