-- ==== Sys2Proof/Machine/HostSyntax.lean ====
section
/-! DEFINITION. The host syntax and the pseudo-instructions of rules R307 and R308, and the bus accesses they stand
for.  The host alone sequences commands (R306): what these expand to is put in `State.host`. -/

namespace Sys2Proof.Machine

/-- A primitive statement (R307). -/
inductive Stmt where
  /-- `wr NAME, v`. -/
  | wr (r : Reg) (v : Word)
  /-- `wr BUF[i], v`. -/
  | wrBuf (b : Buf) (i : Nat) (v : Word)
  /-- `rd NAME`. -/
  | rd (r : Reg)
  /-- `rd BUF[i]`. -/
  | rdBuf (b : Buf) (i : Nat)
  /-- `cmd MNEMONIC`. -/
  | cmd (i : Instr)
  deriving DecidableEq, Repr

/-- A pseudo-instruction, in the order of rule R308. -/
inductive Pseudo where
  | wait
  | clr
  | gfAdd (a b : Word)
  | gfMul (a b : Word)
  | gfInv (a : Word)
  | gfExp (i : Word)
  | gfLog (a : Word)
  | polyMul (la lb : Word)
  | rsGen (k : Word)
  | rsEnc (s n k : Word)
  | rsSyn (s n k : Word)
  | il (t d b : Word)
  | bit (p : Word)
  deriving DecidableEq, Repr

/-- The bus access of a primitive statement (R307). -/
def Stmt.toAccess : Stmt → Access
  | .wr r v => .write (wordAddr r.offset) v
  | .wrBuf b i v => .write (wordAddr (b.offset i)) v
  | .rd r => .read (wordAddr r.offset)
  | .rdBuf b i => .read (wordAddr (b.offset i))
  | .cmd i => .write (wordAddr Reg.cmd.offset) (encode i)

/-- What the host does for a primitive statement. -/
def Stmt.toOp (st : Stmt) : HostOp := .access st.toAccess

/-- The primitive statements a pseudo-instruction stands for (R308); `wait` is the host's own loop. -/
def Pseudo.stmts : Pseudo → List Stmt
  | .wait => []
  | .clr => [.wr .status 0x00000006]
  | .gfAdd a b => [.wr .argA a, .wr .argB b, .cmd .gfAdd, .rd .result]
  | .gfMul a b => [.wr .argA a, .wr .argB b, .cmd .gfMul, .rd .result]
  | .gfInv a => [.wr .argA a, .cmd .gfInv, .rd .result]
  | .gfExp i => [.wr .argA i, .cmd .gfExp, .rd .result]
  | .gfLog a => [.wr .argA a, .cmd .gfLog, .rd .result]
  | .polyMul la lb => [.wr .lenA la, .wr .lenB lb, .cmd .polyMul]
  | .rsGen k => [.wr .kLen k, .cmd .rsGenpoly]
  | .rsEnc s n k => [.wr .srcOff s, .wr .nLen n, .wr .kLen k, .cmd .rsEncode]
  | .rsSyn s n k => [.wr .srcOff s, .wr .nLen n, .wr .kLen k, .cmd .syndrome]
  | .il t d b => [.wr .total t, .wr .dataTotal d, .wr .blocks b, .cmd .interleave]
  | .bit p => [.wr .fmtPtr p, .rd .fmtBit]

/-- What the host does for a pseudo-instruction (R308). -/
def Pseudo.expand : Pseudo → List HostOp
  | .wait => [.wait]
  | .clr => Pseudo.clr.stmts.map Stmt.toOp
  | .gfAdd a b => (Pseudo.gfAdd a b).stmts.map Stmt.toOp
  | .gfMul a b => (Pseudo.gfMul a b).stmts.map Stmt.toOp
  | .gfInv a => (Pseudo.gfInv a).stmts.map Stmt.toOp
  | .gfExp i => (Pseudo.gfExp i).stmts.map Stmt.toOp
  | .gfLog a => (Pseudo.gfLog a).stmts.map Stmt.toOp
  | .polyMul la lb => (Pseudo.polyMul la lb).stmts.map Stmt.toOp
  | .rsGen k => (Pseudo.rsGen k).stmts.map Stmt.toOp
  | .rsEnc s n k => (Pseudo.rsEnc s n k).stmts.map Stmt.toOp
  | .rsSyn s n k => (Pseudo.rsSyn s n k).stmts.map Stmt.toOp
  | .il t d b => (Pseudo.il t d b).stmts.map Stmt.toOp
  | .bit p => (Pseudo.bit p).stmts.map Stmt.toOp

end Sys2Proof.Machine
end

