-- ==== Sys2Proof/WellFormed.lean ====
section
/-! DEFINITION. Which terms of the syntax stand for something the hardware has.

A command carries no operand (R302), so every command is well formed.  A host statement is well formed when the
buffer entry it names exists (R141, R202). -/

namespace Sys2Proof

/-- Every command is well formed: it has no field to check (R300, R302). -/
def Instr.wf : Instr → Bool
  | .nop => true
  | .gfAdd => true
  | .gfMul => true
  | .gfInv => true
  | .gfExp => true
  | .gfLog => true
  | .polyMul => true
  | .rsGenpoly => true
  | .rsEncode => true
  | .syndrome => true
  | .interleave => true

/-- A 32-bit value is a legal command word when its ZERO field is 0 and its OPCODE is listed (R300, R304). -/
def commandWordWf (v : Word) : Bool :=
  zeroField v == 0
    && [0x00, 0x01, 0x02, 0x03, 0x04, 0x05, 0x10, 0x11, 0x20, 0x21, 0x30].contains (opcodeField v).toNat

/-- A host statement names an entry the buffer has (R141). -/
def Machine.Stmt.wf : Machine.Stmt → Bool
  | .wr _ _ => true
  | .wrBuf b i _ => decide (i < b.size)
  | .rd _ => true
  | .rdBuf b i => decide (i < b.size)
  | .cmd i => i.wf

end Sys2Proof
end

