-- ==== Sys2Proof/Certificates/Slice0/Obligations.lean ====
section
/-! DEFINITION. The statements for the provers, and the reference functions they compare the model with. -/

open Sys2Proof Sys2Proof.Machine

namespace Sys2Proof.Ref

/-- The state a fault-free completion leaves when the command writes nothing: DONE, ENG = IDLE (R131).  `age` is the
model's own count of the running command's steps (log entry 5). -/
def completed (s : State) : State :=
  { s with eng := .idle, age := 0, status := { s.status with done := true } }

/-- The state a faulting completion leaves: FAULT, FAULT_CODE, FAULT_OP, ENG = IDLE, and nothing else (R801). -/
def faulted (s : State) (code op : BitVec 8) : State :=
  { s with
    eng := .idle, age := 0, status := { s.status with fault := true, faultCode := code, faultOp := op } }

/-- No byte outside the `n` words from offset `o` on differs. -/
def sameOutside (m m' : Memory) (o n : Nat) : Prop :=
  ∀ off, off < o ∨ o + 4 * n ≤ off → Memory.read m' off = Memory.read m off

/-- The buffers a command writes: the "written by command" column of rule R141. -/
def writes : Instr → List Buf
  | .nop => []
  | .gfAdd => []
  | .gfMul => []
  | .gfInv => []
  | .gfExp => []
  | .gfLog => []
  | .polyMul => [.pr]
  | .rsGenpoly => [.gen]
  | .rsEncode => [.gen, .ecb]
  | .syndrome => [.syn]
  | .interleave => [.obuf]

/-- The bits a register stores of a written word: its RW field (R115 to R128). -/
def rwMask : Reg → Word
  | .argA => 0x000000FF
  | .argB => 0x000000FF
  | .lenA => 0x000001FF
  | .lenB => 0x000001FF
  | .nLen => 0x000000FF
  | .kLen => 0x000000FF
  | .srcOff => 0x00000FFF
  | .total => 0x00001FFF
  | .dataTotal => 0x00001FFF
  | .blocks => 0x000000FF
  | .fmtPtr => 0x0000FFFF
  | .id | .ctrl | .status | .cmd | .result | .prLen | .outLen | .fmtBit => 0

/-- The registers a host write to which is ignored: ID and the RO ones (R111, R117, R120, R127, R129). -/
def readOnly : List Reg := [.id, .result, .prLen, .outLen, .fmtBit]

/-- The operand registers, all RW (R115 to R128). -/
def operandRegs : List Reg :=
  [.argA, .argB, .lenA, .lenB, .nLen, .kLen, .srcOff, .total, .dataTotal, .blocks, .fmtPtr]

/-- Multiplication of field elements as polynomials over GF(2), reduced by `0x11D`: the bits of `b` from the top, each
shifting the sum and adding `a` (R400, R408). -/
def shiftAndAdd (a b : Byte) : Byte :=
  [7, 6, 5, 4, 3, 2, 1, 0].foldl
    (fun acc j =>
      let wide : BitVec 9 := acc.setWidth 9 <<< 1
      let reduced : BitVec 9 := if wide.getLsbD 8 then wide ^^^ 0x11D#9 else wide
      reduced.setWidth 8 ^^^ (if b.getLsbD j then a else 0))
    0

/-- The value of a polynomial, highest coefficient first, at `x` (R500). -/
def evalAt (x : Byte) (p : List Byte) : Byte := p.foldl (fun acc c => gfAdd (gfMul acc x) c) 0

/-- The ⊕-sum of two arrays of one length. -/
def addArrays (p q : List Byte) : List Byte := List.zipWith gfAdd p q

/-- The bits of a sequence of codewords, each most significant bit first (R730). -/
def bitStream (xs : List Byte) : List Bool :=
  xs.flatMap fun x => [7, 6, 5, 4, 3, 2, 1, 0].map fun j => x.getLsbD j

/-- The operands RS_ENCODE and SYNDROME accept (R605, R615). -/
def rsLegal (s : State) : Prop := 1 ≤ opN s ∧ 1 ≤ opK s ∧ opN s + opK s ≤ 255 ∧ opS s + opN s ≤ 4096

/-- The T, D, B that INTERLEAVE accepts (R720). -/
def ilLegal (T D B : Nat) : Prop :=
  1 ≤ B ∧ T ≤ 4096 ∧ B ≤ D ∧ D < T ∧ T / B + (if T % B > 0 then 1 else 0) ≤ 255 ∧ (T - D) % B = 0

/-- The host's next access is a soft reset: a CTRL write with bit 0 = 1 (R112). -/
def softResetNext (s : State) : Prop :=
  ∃ v rest, s.host = .access (.write (wordAddr 0x004) v) :: rest ∧ v.getLsbD 0 = true

/-- A reset happens in this step: by the pin, or by the host's CTRL write (R900). -/
def resetStep (s : State) : Prop := whoMoves s = .reset ∨ (whoMoves s = .host ∧ softResetNext s)

/-- GEN holds nothing, or the generator polynomial of some degree (R520, R605). -/
def genHoldsGenerator (s : State) : Prop :=
  (∀ i, i < 256 → s.entry .gen i = 0) ∨
    ∃ k, 1 ≤ k ∧ k ≤ 255 ∧ ∀ i, i < 256 → s.entry .gen i = (genPoly k).getD i 0

end Sys2Proof.Ref

open Sys2Proof.Ref

/-! ## Encoding -/

/-- Every word has the meaning rule R303 gives it and no other: a word is a command exactly when it is that command's
encoding (R300, R304). -/
def Obligations.WordIsCommandIffItIsItsEncoding : Prop :=
  ∀ (v : Word) (i : Instr), decode v = .command i ↔ v = encode i

/-- The eleven words of rule R303, written out, decode to their commands. -/
def Obligations.OpcodeMapWordsDecode : Prop :=
  decode 0x00000000 = .command .nop ∧ decode 0x00000001 = .command .gfAdd ∧ decode 0x00000002 = .command .gfMul ∧
  decode 0x00000003 = .command .gfInv ∧ decode 0x00000004 = .command .gfExp ∧ decode 0x00000005 = .command .gfLog ∧
  decode 0x00000010 = .command .polyMul ∧ decode 0x00000011 = .command .rsGenpoly ∧
  decode 0x00000020 = .command .rsEncode ∧ decode 0x00000021 = .command .syndrome ∧
  decode 0x00000030 = .command .interleave

/-! ## Steps -/

/-- When the engine moves, the step is the meaning of the command its word decodes to, or ILLEGAL_COMMAND where it
decodes to none, in the state one turn later (R131, R305).  What passes beside it is the model's own: one turn is taken,
the port answers nothing, and the command is one step older (log entries 4, 5, 10). -/
def Obligations.StepRunsTheDecodedCommand : Prop :=
  ∀ (s : State) (v : Word), s.eng = .run v → whoMoves s = .engine →
    (∀ i, decode v = .command i →
      step s = exec i { s with turns := s.turns.tail, resp := .notReady, age := s.age + 1 }) ∧
    ∀ why, decode v = .illegal why →
      step s = .next (faulted { s with turns := s.turns.tail, resp := .notReady } 0x01 (v.setWidth 8))

/-- A word that rule R303 does not list raises ILLEGAL_COMMAND: FAULT, FAULT_CODE 1, FAULT_OP its low byte, and nothing
else of the block changes (R304, R802). -/
def Obligations.UnlistedWordRaisesIllegalCommand : Prop :=
  ∀ (s : State) (v : Word),
    v.toNat ∉ [0x00, 0x01, 0x02, 0x03, 0x04, 0x05, 0x10, 0x11, 0x20, 0x21, 0x30] →
    complete v s = .next (faulted s 0x01 (v.setWidth 8))

/-- No step stops the machine: every step answers a next state. That nothing stops the block is the model's inference
(DEDUCED, log entry 2), from the completion and the recording of faults (R131, R831) and the effect of every access
(R203). -/
def Obligations.EveryStepAnswersNext : Prop := ∀ s : State, ∃ t, step s = .next t

/-- Every run is safe, however long. It rests on the model's inference that nothing stops the block (DEDUCED, log
entry 2). -/
def Obligations.EveryRunIsSafe : Prop := ∀ (n : Nat) (s : State), SafeRun n s

/-- A write of `v` to CMD while the engine is idle starts command `v`, and changes nothing else of the block; CMD
reads 0 (R114). The turn taken, the port's answer, the age and the host's list are the model's own (log entries 3, 4,
5, 8, 10). -/
def Obligations.CmdWriteStartsTheCommand : Prop :=
  ∀ (s : State) (v : Word) (rest : List HostOp), s.eng = .idle → whoMoves s = .host →
    s.host = .access (.write (wordAddr 0x00C) v) :: rest →
    step s = .next { s with eng := .run v, age := 0, host := rest, turns := s.turns.tail, resp := .wrote } ∧
      busRead (wordAddr 0x00C) s = 0

/-- The host's `wait` reads STATUS, and is presented again exactly while BUSY reads 1 (R308). The turn taken, the
port's answer, the age and the host's list are the model's own (log entries 3, 4, 5, 8, 10). -/
def Obligations.WaitPollsStatusUntilIdle : Prop :=
  ∀ (s : State) (rest : List HostOp), whoMoves s = .host → s.host = .wait :: rest →
    step s = .next { s with
      resp := .data (busRead (wordAddr 0x008) s),
      host := if (busRead (wordAddr 0x008) s).getLsbD 0 then .wait :: rest else rest,
      turns := s.turns.tail, age := if s.busy then s.age + 1 else s.age }

/-- While a command runs, an access to any offset but ID, CTRL and STATUS is held: it is not performed, it stays the
host's outstanding access, and the block does not change (R210). The turn taken, the port's answer, the age and the
host's list are the model's own (log entries 3, 4, 5, 8, 10). -/
def Obligations.RunningCommandHoldsAccesses : Prop :=
  ∀ (s : State) (v : Word) (a : Access) (rest : List HostOp), s.eng = .run v → whoMoves s = .host →
    s.host = .access a :: rest → byteOffset a.addr ∉ [0x000, 0x004, 0x008] →
    step s = .next { s with turns := s.turns.tail, resp := .notReady, age := s.age + 1 }

/-- A performed read answers the word at its address and changes nothing of the block (R208): an access to ID, CTRL or
STATUS always, to any other offset when the engine is idle (R210). The turn taken, the port's answer, the age and the
host's list are the model's own (log entries 3, 4, 5, 8, 10). -/
def Obligations.ReadHasNoSideEffect : Prop :=
  ∀ (s : State) (addr : BitVec 14) (rest : List HostOp), whoMoves s = .host →
    s.host = .access (.read addr) :: rest → s.eng = .idle ∨ byteOffset addr ∈ [0x000, 0x004, 0x008] →
    step s = .next { s with
      resp := .data (busRead addr s), host := rest, turns := s.turns.tail, age := if s.busy then s.age + 1 else s.age }

/-- A performed write has its effect, whole, in one step: the block is what the write makes of it, in the state one turn
later (R208, R212), an access to ID, CTRL or STATUS always, to any other offset when the engine is idle (R210). The turn
taken, the port's answer, the age and the host's list are the model's own (log entries 3, 4, 5, 8, 10). -/
def Obligations.WriteHasItsEffect : Prop :=
  ∀ (s : State) (addr : BitVec 14) (v : Word) (rest : List HostOp), whoMoves s = .host →
    s.host = .access (.write addr v) :: rest → s.eng = .idle ∨ byteOffset addr ∈ [0x000, 0x004, 0x008] →
    step s = .next
      { busWrite addr v { s with
          turns := s.turns.tail, resp := .notReady, age := if s.busy then s.age + 1 else s.age } with
        resp := .wrote, host := rest }

/-- What a running command reads cannot change before its completion except by reset: a step in which the host moves
without a soft reset keeps the command, every operand register, every buffer, every result, SYN_ZERO, FAULT_CODE and
FAULT_OP (R211). Who moves is log entry 4's input. -/
def Obligations.HostCannotDisturbARunningCommand : Prop :=
  ∀ (s t : State) (v : Word), s.eng = .run v → whoMoves s = .host → ¬ softResetNext s → step s = .next t →
    t.eng = .run v ∧ t.ops = s.ops ∧ t.mem = s.mem ∧ t.res = s.res ∧ t.status.synZero = s.status.synZero ∧
    t.status.faultCode = s.status.faultCode ∧ t.status.faultOp = s.status.faultOp

/-- The engine leaves IDLE only by a CMD write, and leaves RUN only by its completion step or by a reset; BUSY reads 1
exactly while it runs (R130). Who moves is log entry 4's input. -/
def Obligations.EngineMovesOnlyByCmdCompletionOrReset : Prop :=
  ∀ s t : State, step s = .next t →
    (s.eng = .idle → t.eng ≠ .idle →
      ∃ v rest, whoMoves s = .host ∧ s.host = .access (.write (wordAddr 0x00C) v) :: rest ∧ t.eng = .run v) ∧
    (∀ v, s.eng = .run v → t.eng ≠ .run v → whoMoves s = .engine ∨ resetStep s) ∧
    ((busRead (wordAddr 0x008) s).getLsbD 0 = true ↔ ∃ v, s.eng = .run v)

/-- DONE is cleared only by a STATUS write with bit 1 = 1 or by a reset, and FAULT only by one with bit 2 = 1 or by a
reset; DONE and FAULT are set, and SYN_ZERO changes, only when the engine completes (SYN_ZERO also by a reset),
SYN_ZERO only in SYNDROME (R132). Who moves is log entry 4's input. -/
def Obligations.FlagsAreSticky : Prop :=
  ∀ s t : State, step s = .next t →
    (s.status.done = true → t.status.done = false →
      resetStep s ∨ ∃ v rest, whoMoves s = .host ∧ s.host = .access (.write (wordAddr 0x008) v) :: rest ∧
        v.getLsbD 1 = true) ∧
    (s.status.fault = true → t.status.fault = false →
      resetStep s ∨ ∃ v rest, whoMoves s = .host ∧ s.host = .access (.write (wordAddr 0x008) v) :: rest ∧
        v.getLsbD 2 = true) ∧
    (s.status.done = false → t.status.done = true → whoMoves s = .engine ∧ ∃ v, s.eng = .run v) ∧
    (s.status.fault = false → t.status.fault = true → whoMoves s = .engine ∧ ∃ v, s.eng = .run v) ∧
    (t.status.synZero ≠ s.status.synZero →
      resetStep s ∨ (whoMoves s = .engine ∧ s.eng = .run (encode .syndrome)))

/-- A running command completes, or is reset, within MAX_LATENCY steps of its CMD write, whatever the host does and
whoever moves (R131, R921). It holds for every value of MAX_LATENCY, of which the model has none. Steps and the age
are counted as log entries 4, 5 and 8 say. -/
def Obligations.CommandEndsWithinMaxLatency : Prop :=
  ∀ s : State, s.busy = true → s.age < Config.maxLatency →
    ∃ n t, 1 ≤ n ∧ n ≤ Config.maxLatency - s.age ∧ stepsFrom n s = .next t ∧ t.busy = false

/-! ## The end of a command -/

/-- Every command completes in exactly one of two ways: DONE is set and the fault record kept, or a fault is recorded,
with the command's opcode byte, and nothing but FAULT, FAULT_CODE and FAULT_OP changes, DONE kept (R131, R801). -/
def Obligations.CommandEndsDoneOrFaulted : Prop :=
  ∀ (i : Instr) (s : State), ∃ t, exec i s = .next t ∧ t.eng = .idle ∧
    ((t.status.done = true ∧ t.status.fault = s.status.fault ∧ t.status.faultCode = s.status.faultCode ∧
        t.status.faultOp = s.status.faultOp) ∨
      ∃ code, 1 ≤ code.toNat ∧ code.toNat ≤ 5 ∧ t = faulted s code ((encode i).setWidth 8))

/-- A command writes only the buffers of its row of rule R141: every entry of every other buffer is kept, and so are
the operand registers, FMT_PTR among them, and IRQ_EN. -/
def Obligations.CommandWritesOnlyItsBuffers : Prop :=
  ∀ (i : Instr) (s t : State), exec i s = .next t →
    (∀ b, b ∉ writes i → ∀ j, j < b.size → t.entry b j = s.entry b j) ∧
    t.ops = s.ops ∧ t.irqEn = s.irqEn ∧ t.host = s.host ∧ t.turns = s.turns ∧ t.resp = s.resp

/-- RESULT changes only by a scalar command, PR_LEN only by POLY_MUL, OUT_LEN only by INTERLEAVE, SYN_ZERO only by
SYNDROME (R117, R120, R127, R132). -/
def Obligations.ResultRegistersChangeOnlyByTheirCommands : Prop :=
  ∀ (i : Instr) (s t : State), exec i s = .next t →
    (i ∉ [.gfAdd, .gfMul, .gfInv, .gfExp, .gfLog] → t.res.result = s.res.result) ∧
    (i ≠ .polyMul → t.res.prLen = s.res.prLen) ∧ (i ≠ .interleave → t.res.outLen = s.res.outLen) ∧
    (i ≠ .syndrome → t.status.synZero = s.status.synZero)

/-- Each operand of a command is the field of its own register, zero-extended (R302). -/
def Obligations.OperandsAreTheirFields : Prop :=
  ∀ s : State,
    opA s = s.ops.argA ∧ opB s = s.ops.argB ∧ opLa s = s.ops.lenA.toNat ∧ opLb s = s.ops.lenB.toNat ∧
    opN s = s.ops.nLen.toNat ∧ opK s = s.ops.kLen.toNat ∧ opS s = s.ops.srcOff.toNat ∧ opT s = s.ops.total.toNat ∧
    opD s = s.ops.dataTotal.toNat ∧ opB' s = s.ops.blocks.toNat

/-- Every completion, of a command with or without a fault and of a word that is no command, raises irq when IRQ_EN = 1,
and irq stays 0 when IRQ_EN = 0; writing 1 to both flags lowers it.  In every state irq is the level IRQ_EN AND (DONE OR
FAULT) (R830, R802). -/
def Obligations.CompletionRaisesIrq : Prop :=
  (∀ (i : Instr) (s t : State), exec i s = .next t →
    t.irq = s.irqEn ∧ (busWrite (wordAddr 0x008) 0x00000006 t).irq = false) ∧
  (∀ (v : Word) (s : State), ∃ t, complete v s = .next t ∧
    t.irq = s.irqEn ∧ (busWrite (wordAddr 0x008) 0x00000006 t).irq = false) ∧
  ∀ s : State, s.irq = (s.irqEn && (s.status.done || s.status.fault))

/-! ## Scalar commands -/

/-- NOP, `0x00000000`, writes nothing and sets DONE (R410). -/
def Obligations.NopOnlySetsDone : Prop :=
  encode .nop = 0x00000000 ∧ ∀ s : State, exec .nop s = .next (completed s)

/-- GF_ADD, `0x00000001`: RESULT <- a XOR b, DONE, and nothing else changes (R411). -/
def Obligations.GfAddWritesTheXor : Prop :=
  encode .gfAdd = 0x00000001 ∧
  ∀ s : State, exec .gfAdd s =
    .next { completed s with res := { s.res with result := s.ops.argA ^^^ s.ops.argB } }

/-- GF_MUL, `0x00000002`: RESULT <- 0 when a or b is 0, else EXP[(i + j) mod 255] for the logarithms i and j of a and
b; DONE, and nothing else changes (R412). -/
def Obligations.GfMulWritesTheProduct : Prop :=
  encode .gfMul = 0x00000002 ∧
  ∀ s : State,
    (s.ops.argA = 0 ∨ s.ops.argB = 0 →
      exec .gfMul s = .next { completed s with res := { s.res with result := 0 } }) ∧
    (s.ops.argA ≠ 0 → s.ops.argB ≠ 0 → ∃ i j, i < 255 ∧ j < 255 ∧ gfExp i = s.ops.argA ∧ gfExp j = s.ops.argB ∧
      exec .gfMul s = .next { completed s with res := { s.res with result := gfExp ((i + j) % 255) } })

/-- GF_INV, `0x00000003`: for a ≠ 0, RESULT <- EXP[255 − i] with i the logarithm of a, and a ⊗ RESULT = 1; for a = 0,
LOG_OF_ZERO with FAULT_OP 3 and RESULT kept (R413). -/
def Obligations.GfInvWritesTheInverse : Prop :=
  encode .gfInv = 0x00000003 ∧
  ∀ s : State,
    (s.ops.argA ≠ 0 → ∃ i, i < 255 ∧ gfExp i = s.ops.argA ∧ gfMul s.ops.argA (gfExp (255 - i)) = 1 ∧
      exec .gfInv s = .next { completed s with res := { s.res with result := gfExp (255 - i) } }) ∧
    (s.ops.argA = 0 → exec .gfInv s = .next (faulted s 0x02 0x03))

/-- GF_EXP, `0x00000004`: RESULT <- EXP[i] for every i in 0..255, where EXP starts at 1 and each entry doubles the one
before, reduced by `0x11D`; DONE, and nothing else changes (R414, R401). -/
def Obligations.GfExpWritesTheTableEntry : Prop :=
  encode .gfExp = 0x00000004 ∧
  (∀ s : State, exec .gfExp s =
    .next { completed s with res := { s.res with result := gfExp s.ops.argA.toNat } }) ∧
  gfExp 0 = 0x01 ∧
  ∀ i, i < 255 → (gfExp (i + 1)).toNat =
    if 2 * (gfExp i).toNat < 256 then 2 * (gfExp i).toNat else (2 * (gfExp i).toNat) ^^^ 0x11D

/-- GF_LOG, `0x00000005`: for a ≠ 0, RESULT <- the one i in 0..254 with EXP[i] = a; for a = 0, LOG_OF_ZERO with
FAULT_OP 5 and RESULT kept (R415, R403). -/
def Obligations.GfLogWritesTheExponent : Prop :=
  encode .gfLog = 0x00000005 ∧
  ∀ s : State,
    (s.ops.argA ≠ 0 → ∃ i, i < 255 ∧ gfExp i = s.ops.argA ∧ (∀ j, j < 255 → gfExp j = s.ops.argA → j = i) ∧
      exec .gfLog s = .next { completed s with res := { s.res with result := BitVec.ofNat 8 i } }) ∧
    (s.ops.argA = 0 → exec .gfLog s = .next (faulted s 0x02 0x05))

/-! ## The field -/

/-- ⊗ is commutative and associative and distributes over ⊕, 1 ⊗ a = a, 0 ⊗ a = 0, and a ⊗ inv(a) = 1 for a ≠ 0
(R408). -/
def Obligations.FieldLaws : Prop :=
  (∀ a b, gfMul a b = gfMul b a) ∧ (∀ a b c, gfMul (gfMul a b) c = gfMul a (gfMul b c)) ∧
  (∀ a b c, gfMul a (gfAdd b c) = gfAdd (gfMul a b) (gfMul a c)) ∧ (∀ a, gfMul 1 a = a) ∧ (∀ a, gfMul 0 a = 0) ∧
  (∀ a, a ≠ 0 → ∃ r, gfInv a = some r ∧ gfMul a r = 1) ∧ (∀ a, gfAdd a a = 0)

/-- a ⊗ b, read from the tables, is the carry-less product of a and b reduced by `0x11D` (R408). -/
def Obligations.MulIsCarrylessProduct : Prop := ∀ a b : Byte, gfMul a b = shiftAndAdd a b

/-- EXP[0..254] are 255 distinct values, exactly the non-zero elements; EXP[1] = 2 and EXP[255] = 1 (R402). -/
def Obligations.PowersOfAlphaAreTheNonzeroElements : Prop :=
  gfExp 1 = 0x02 ∧ gfExp 255 = 0x01 ∧ (∀ i j, i < 255 → j < 255 → gfExp i = gfExp j → i = j) ∧
  (∀ i, i < 255 → gfExp i ≠ 0) ∧ ∀ a : Byte, a ≠ 0 → ∃ i, i < 255 ∧ gfExp i = a

/-! ## Polynomials -/

/-- POLY_MUL with 1 ≤ la, lb ≤ 256: PR <- the product array and 0 after it, PR_LEN <- la + lb − 1, DONE; every other
register, flag and byte of memory is kept (R510). -/
def Obligations.PolyMulWritesTheProduct : Prop :=
  ∀ s : State, 1 ≤ opLa s → opLa s ≤ 256 → 1 ≤ opLb s → opLb s ≤ 256 →
    ∃ t, exec .polyMul s = .next t ∧
      t = { completed s with res := { s.res with prLen := t.res.prLen }, mem := t.mem } ∧
      t.res.prLen.toNat = opLa s + opLb s - 1 ∧
      (∀ i, i < 512 → t.entry .pr i =
        if i < opLa s + opLb s - 1 then
          gfSum ((List.range (opLa s)).map fun j =>
            if j ≤ i ∧ i - j < opLb s then gfMul (s.entry .pa j) (s.entry .pb (i - j)) else 0)
        else 0) ∧
      sameOutside s.mem t.mem 0x1800 512

/-- POLY_MUL with a length of 0 or above 256 raises BAD_LENGTH: PR and PR_LEN keep their values (R510). -/
def Obligations.PolyMulRefusesBadLengths : Prop :=
  ∀ s : State, opLa s < 1 ∨ opLa s > 256 ∨ opLb s < 1 ∨ opLb s > 256 →
    exec .polyMul s = .next (faulted s 0x04 0x10)

/-- The product array denotes the product of the polynomials: its value at every point is the product of the values
(R500, R501). -/
def Obligations.ProductArrayIsThePolynomialProduct : Prop :=
  ∀ (A B : List Byte) (x : Byte), A ≠ [] → B ≠ [] →
    (polyMul A B).length = A.length + B.length - 1 ∧ evalAt x (polyMul A B) = gfMul (evalAt x A) (evalAt x B)

/-- RS_GENPOLY, `0x00000011`, with k ≥ 1: GEN <- g_k and 0 after it, DONE, and every other register, flag and byte of
memory is kept; with k = 0, BAD_LENGTH and GEN kept (R520). -/
def Obligations.RsGenpolyWritesTheGenerator : Prop :=
  encode .rsGenpoly = 0x00000011 ∧
  ∀ s : State,
    (1 ≤ opK s →
      ∃ t, exec .rsGenpoly s = .next t ∧ t = { completed s with mem := t.mem } ∧
        (∀ j, j < 256 → t.entry .gen j = if j ≤ opK s then (genPoly (opK s)).getD j 0 else 0) ∧
        sameOutside s.mem t.mem 0x2000 256) ∧
    (opK s = 0 → exec .rsGenpoly s = .next (faulted s 0x04 0x11))

/-- g_k has length k + 1, is monic, and is g_(k−1) times the factor [1, EXP[k−1]]; its value at x is the product of
the x ⊕ α^i for i < k, so its roots are α^0 … α^(k−1) (R502). -/
def Obligations.GeneratorHasRootsAtPowersOfAlpha : Prop :=
  ∀ k, k ≤ 255 → (genPoly k).length = k + 1 ∧ (genPoly k).head? = some 1 ∧
    genPoly (k + 1) = polyMul (genPoly k) [1, gfExp k] ∧
    (∀ x, evalAt x (genPoly k) = ((List.range k).map fun i => gfAdd x (gfExp i)).foldr gfMul 1) ∧
    ∀ i, i < k → evalAt (gfExp i) (genPoly k) = 0

/-! ## Reed-Solomon -/

/-- RS_ENCODE with legal operands: GEN <- g_k, ECB <- the EC bytes of DBUF[s..s+n-1], each 0 after its end, DONE;
every other register, flag and byte of memory is kept (R605). -/
def Obligations.RsEncodeWritesTheEcBytes : Prop :=
  ∀ s : State, rsLegal s →
    ∃ t, exec .rsEncode s = .next t ∧ t = { completed s with mem := t.mem } ∧
      (∀ j, j < 256 → t.entry .gen j = if j ≤ opK s then (genPoly (opK s)).getD j 0 else 0) ∧
      (∀ j, j < 256 → t.entry .ecb j =
        if j < opK s then
          (ecBytes ((List.range (opN s)).map fun i => s.entry .dbuf (opS s + i)) (opK s)).getD j 0
        else 0) ∧
      sameOutside s.mem t.mem 0x2000 512

/-- The EC bytes are the remainder of d(x) · x^k by g_k(x): an array r of length k is the EC bytes exactly when d(x) ·
x^k ⊕ r(x) is a multiple of g_k(x) (R601). For k above 256, which no command admits, g_k is the model's own (log entry
11). -/
def Obligations.EcBytesAreTheRemainder : Prop :=
  ∀ (d r : List Byte) (k : Nat), d ≠ [] → 1 ≤ k → r.length = k →
    (r = ecBytes d k ↔
      ∃ q : List Byte, q.length = d.length ∧
        addArrays (d ++ List.replicate k 0) (List.replicate d.length 0 ++ r) = polyMul q (genPoly k))

/-- The EC bytes depend on the data bytes and k only: RS_ENCODE of equal data with equal k leaves equal ECB, whatever
else differs (R603). -/
def Obligations.EcBytesDependOnDataAndDegreeOnly : Prop :=
  ∀ s s' t t' : State, rsLegal s → rsLegal s' → opN s = opN s' → opK s = opK s' →
    (∀ i, i < opN s → s.entry .dbuf (opS s + i) = s'.entry .dbuf (opS s' + i)) →
    exec .rsEncode s = .next t → exec .rsEncode s' = .next t' →
    ∀ j, j < 256 → t.entry .ecb j = t'.entry .ecb j

/-- SYNDROME with legal operands: SYN <- S_0 … S_(k−1) of the codeword DBUF[s..s+n-1] ++ ECB[0..k-1], S_j the ⊕-sum of
c[i] ⊗ EXP[(j · (L−1−i)) mod 255], and 0 after them; SYN_ZERO <- 1 exactly when all are 0; DONE; every other register,
flag and byte of memory is kept (R610, R615). -/
def Obligations.SyndromeWritesTheSyndromes : Prop :=
  ∀ s : State, rsLegal s →
    ∃ t, exec .syndrome s = .next t ∧
      t = { s with
        eng := .idle, age := 0, mem := t.mem,
        status := { s.status with done := true, synZero := t.status.synZero } } ∧
      (∀ j, j < 256 → t.entry .syn j =
        if j < opK s then
          gfSum ((List.range (opN s + opK s)).map fun i =>
            gfMul (if i < opN s then s.entry .dbuf (opS s + i) else s.entry .ecb (i - opN s))
              (gfExp ((j * (opN s + opK s - 1 - i)) % 255)))
        else 0) ∧
      (t.status.synZero = true ↔ ∀ j, j < opK s → t.entry .syn j = 0) ∧
      sameOutside s.mem t.mem 0x2800 256

/-- RS_ENCODE and SYNDROME check n < 1, k < 1 and n + k > 255 (BAD_LENGTH) first, then s + n > 4096 (BUF_RANGE); the
first that holds is the fault (R605, R615, R804). -/
def Obligations.RsCommandsRefuseBadOperands : Prop :=
  ∀ s : State,
    (opN s < 1 ∨ opK s < 1 ∨ opN s + opK s > 255 →
      exec .rsEncode s = .next (faulted s 0x04 0x20) ∧ exec .syndrome s = .next (faulted s 0x04 0x21)) ∧
    (1 ≤ opN s → 1 ≤ opK s → opN s + opK s ≤ 255 → opS s + opN s > 4096 →
      exec .rsEncode s = .next (faulted s 0x03 0x20) ∧ exec .syndrome s = .next (faulted s 0x03 0x21))

/-- RS_ENCODE followed by SYNDROME with the same s, n, k gives SYN_ZERO = 1 and every syndrome 0 (R612). -/
def Obligations.EncodedBlockHasZeroSyndromes : Prop :=
  ∀ s t : State, rsLegal s → exec .rsEncode s = .next t →
    ∃ u, exec .syndrome t = .next u ∧ u.status.synZero = true ∧ ∀ j, j < 256 → u.entry .syn j = 0

/-! ## The interleaver and the formatter -/

/-- INTERLEAVE with legal T, D, B: OBUF <- the interleaved codewords and 0 after them, OUT_LEN <- T, DONE; every other
register, flag and byte of memory is kept (R720). -/
def Obligations.InterleaveWritesTheCodewords : Prop :=
  ∀ s : State, ilLegal (opT s) (opD s) (opB' s) →
    ∃ t, exec .interleave s = .next t ∧
      t = { completed s with res := { s.res with outLen := t.res.outLen }, mem := t.mem } ∧
      t.res.outLen.toNat = opT s ∧
      (∀ i, i < 4096 → t.entry .obuf i =
        if i < opT s then
          (interleave (opT s) (opD s) (opB' s) ((List.range (opD s)).map fun i => s.entry .dbuf i)).getD i 0
        else 0) ∧
      sameOutside s.mem t.mem 0x8000 4096

/-- The order of the codewords: data byte i of block b at i · B + b for the rows every block has, then the last byte
of each group-2 block, then EC byte i of block b at D + i · B + b; T codewords in all. Block b holds the n_b bytes
from b · d1 + (b − g1) on (R700, R701, R703, R704, R705). For e above 256, which no command admits, the EC bytes are
the model's own (log entry 11). -/
def Obligations.CodewordsAreInterleavedByColumns : Prop :=
  ∀ (T D B : Nat) (d : List Byte), 1 ≤ B → B ≤ D → D < T → (T - D) % B = 0 → d.length = D →
    let d1 := D / B
    let g1 := B - T % B
    let e := T / B - d1
    let o := fun b => b * d1 + (b - g1)
    let n := fun b => if b < g1 then d1 else d1 + 1
    let out := interleave T D B d
    out.length = T ∧
    (∀ i b, i < d1 → b < B → out.getD (i * B + b) 0 = d.getD (o b + i) 0) ∧
    (∀ b, g1 ≤ b → b < B → out.getD (d1 * B + (b - g1)) 0 = d.getD (o b + d1) 0) ∧
    (∀ i b, i < e → b < B → out.getD (D + i * B + b) 0 = (ecBytes ((d.drop (o b)).take (n b)) e).getD i 0)

/-- The blocks use exactly the D data bytes if and only if (T − D) mod B = 0 (R702). -/
def Obligations.SplitUsesAllDataIffEcCountsMatch : Prop :=
  ∀ T D B : Nat, 1 ≤ B → B ≤ D → D < T → ((blockSizes T D B).sum = D ↔ (T - D) % B = 0)

/-- INTERLEAVE's checks in their order: B < 1, T > 4096, D < B, D ≥ T, a block longer than 255 (BAD_LENGTH), then
(T − D) mod B ≠ 0 (EC_MISMATCH); OBUF and OUT_LEN keep their values (R720, R806). -/
def Obligations.InterleaveRefusesBadCounts : Prop :=
  ∀ s : State,
    (opB' s < 1 ∨ opT s > 4096 ∨ opD s < opB' s ∨ opD s ≥ opT s ∨
        opT s / opB' s + (if opT s % opB' s > 0 then 1 else 0) > 255 →
      exec .interleave s = .next (faulted s 0x04 0x30)) ∧
    (1 ≤ opB' s → opT s ≤ 4096 → opB' s ≤ opD s → opD s < opT s →
        opT s / opB' s + (if opT s % opB' s > 0 then 1 else 0) ≤ 255 → (opT s - opD s) % opB' s ≠ 0 →
      exec .interleave s = .next (faulted s 0x05 0x30))

/-- Writing p to FMT_PTR and reading FMT_BIT gives bit p of OBUF[0..OUT_LEN-1], each codeword most significant bit
first, and 0 for every p from 8 · OUT_LEN on (R730). -/
def Obligations.FormatterReadsTheStreamMsbFirst : Prop :=
  ∀ (s : State) (p : Word),
    busRead (wordAddr 0x048) (busWrite (wordAddr 0x044) p s) =
      if (bitStream ((List.range s.res.outLen.toNat).map fun i => s.entry .obuf i)).getD (p.toNat % 65536) false
      then 1 else 0

/-! ## The window -/

/-- Each of the nineteen registers is the word at its offset, and entry i of each of the eight buffers the word at its
buffer's base plus 4 · i (R111 to R129, R140, R141, R201).  Every register reads as its own fields at their bits and 0 elsewhere: ID as
`0x47463801` and CMD as 0 in every state, FMT_BIT as the bit of OBUF at FMT_PTR below 8 · OUT_LEN, else 0 (R110 to R129,
R730).  An entry's word reads as the entry (R140). -/
def Obligations.WindowMapNamesRegistersAndEntries : Prop :=
  target (wordAddr 0x000) = .reg .id ∧ target (wordAddr 0x004) = .reg .ctrl ∧
  target (wordAddr 0x008) = .reg .status ∧ target (wordAddr 0x00C) = .reg .cmd ∧
  target (wordAddr 0x010) = .reg .argA ∧ target (wordAddr 0x014) = .reg .argB ∧
  target (wordAddr 0x018) = .reg .result ∧ target (wordAddr 0x01C) = .reg .lenA ∧
  target (wordAddr 0x020) = .reg .lenB ∧ target (wordAddr 0x024) = .reg .prLen ∧
  target (wordAddr 0x028) = .reg .nLen ∧ target (wordAddr 0x02C) = .reg .kLen ∧
  target (wordAddr 0x030) = .reg .srcOff ∧ target (wordAddr 0x034) = .reg .total ∧
  target (wordAddr 0x038) = .reg .dataTotal ∧ target (wordAddr 0x03C) = .reg .blocks ∧
  target (wordAddr 0x040) = .reg .outLen ∧ target (wordAddr 0x044) = .reg .fmtPtr ∧
  target (wordAddr 0x048) = .reg .fmtBit ∧
  (∀ i, i < 256 → target (wordAddr (0x1000 + 4 * i)) = .entry .pa i) ∧
  (∀ i, i < 256 → target (wordAddr (0x1400 + 4 * i)) = .entry .pb i) ∧
  (∀ i, i < 512 → target (wordAddr (0x1800 + 4 * i)) = .entry .pr i) ∧
  (∀ i, i < 256 → target (wordAddr (0x2000 + 4 * i)) = .entry .gen i) ∧
  (∀ i, i < 256 → target (wordAddr (0x2400 + 4 * i)) = .entry .ecb i) ∧
  (∀ i, i < 256 → target (wordAddr (0x2800 + 4 * i)) = .entry .syn i) ∧
  (∀ i, i < 4096 → target (wordAddr (0x4000 + 4 * i)) = .entry .dbuf i) ∧
  (∀ i, i < 4096 → target (wordAddr (0x8000 + 4 * i)) = .entry .obuf i) ∧
  (∀ r, target (wordAddr r.offset) = .reg r) ∧
  (∀ b i, i < b.size → target (wordAddr (b.base + 4 * i)) = .entry b i) ∧
  (∀ s : State,
    busRead (wordAddr 0x000) s = 0x47463801 ∧ busRead (wordAddr 0x004) s = (if s.irqEn then 2 else 0) ∧
    busRead (wordAddr 0x008) s =
      0#8 ++ s.status.faultOp ++ s.status.faultCode ++ 0#4 ++ BitVec.ofBool s.status.synZero ++
        BitVec.ofBool s.status.fault ++ BitVec.ofBool s.status.done ++ BitVec.ofBool s.busy ∧
    busRead (wordAddr 0x00C) s = 0 ∧
    busRead (wordAddr 0x048) s =
      (if s.ops.fmtPtr.toNat < 8 * s.res.outLen.toNat ∧
          (s.entry .obuf (s.ops.fmtPtr.toNat / 8)).getLsbD (7 - s.ops.fmtPtr.toNat % 8) = true
        then 1 else 0) ∧
    busRead (wordAddr 0x010) s = s.ops.argA.setWidth 32 ∧ busRead (wordAddr 0x014) s = s.ops.argB.setWidth 32 ∧
    busRead (wordAddr 0x018) s = s.res.result.setWidth 32 ∧ busRead (wordAddr 0x01C) s = s.ops.lenA.setWidth 32 ∧
    busRead (wordAddr 0x020) s = s.ops.lenB.setWidth 32 ∧ busRead (wordAddr 0x024) s = s.res.prLen.setWidth 32 ∧
    busRead (wordAddr 0x028) s = s.ops.nLen.setWidth 32 ∧ busRead (wordAddr 0x02C) s = s.ops.kLen.setWidth 32 ∧
    busRead (wordAddr 0x030) s = s.ops.srcOff.setWidth 32 ∧ busRead (wordAddr 0x034) s = s.ops.total.setWidth 32 ∧
    busRead (wordAddr 0x038) s = s.ops.dataTotal.setWidth 32 ∧ busRead (wordAddr 0x03C) s = s.ops.blocks.setWidth 32 ∧
    busRead (wordAddr 0x040) s = s.res.outLen.setWidth 32 ∧ busRead (wordAddr 0x044) s = s.ops.fmtPtr.setWidth 32) ∧
  ∀ (s : State) (b : Buf) (i : Nat), i < b.size → busRead (wordAddr (b.base + 4 * i)) s = (s.entry b i).setWidth 32

/-- A reserved word reads 0 and ignores writes (R203). -/
def Obligations.ReservedWordsReadZeroAndIgnoreWrites : Prop :=
  ∀ (s : State) (addr : BitVec 14) (v : Word),
    (0x04C ≤ byteOffset addr ∧ byteOffset addr < 0x1000) ∨ (0x2C00 ≤ byteOffset addr ∧ byteOffset addr < 0x4000) ∨
      0xC000 ≤ byteOffset addr →
    busRead addr s = 0 ∧ busWrite addr v s = s

/-- A host write to an operand register stores the written bits of its field, in range or not; it reads back as those
bits, zero-extended, and no other register but FMT_BIT, no flag and no buffer entry changes (R110). -/
def Obligations.OperandRegistersStoreTheirField : Prop :=
  ∀ (s : State) (r : Reg) (v : Word), r ∈ operandRegs →
    readReg r (busWrite (wordAddr r.offset) v s) = v &&& rwMask r ∧
    (∀ r', r' ≠ r → r' ≠ .fmtBit → readReg r' (busWrite (wordAddr r.offset) v s) = readReg r' s) ∧
    busWrite (wordAddr r.offset) v s = { s with ops := (busWrite (wordAddr r.offset) v s).ops }

/-- A host write to a RO register or a RO buffer is ignored (R110, R141). -/
def Obligations.ReadOnlyWordsIgnoreWrites : Prop :=
  ∀ (s : State) (v : Word),
    (∀ r, r ∈ readOnly → busWrite (wordAddr r.offset) v s = s) ∧
    ∀ b i, b ∈ [Buf.pr, .gen, .syn, .obuf] → i < b.size → busWrite (wordAddr (b.offset i)) v s = s

/-- A host write to an entry of PA, PB, ECB or DBUF stores bits [7:0]; bits [31:8] read 0; every other word of the
window reads as before (R140, R141). -/
def Obligations.BufferWriteReadsBackItsLowByte : Prop :=
  ∀ (s : State) (b : Buf) (i : Nat) (v : Word), Memory.wf s.mem → b ∈ [Buf.pa, .pb, .ecb, .dbuf] → i < b.size →
    busRead (wordAddr (b.offset i)) (busWrite (wordAddr (b.offset i)) v s) = v &&& 0xFF ∧
    ∀ addr, addr ≠ wordAddr (b.offset i) → busRead addr (busWrite (wordAddr (b.offset i)) v s) = busRead addr s

/-- STATUS reads its fields at their bits, the reserved bits 0 (R113). -/
def Obligations.StatusReadsItsFields : Prop :=
  ∀ s : State,
    (busRead (wordAddr 0x008) s).toNat =
      (if s.busy then 1 else 0) + (if s.status.done then 2 else 0) + (if s.status.fault then 4 else 0) +
      (if s.status.synZero then 8 else 0) + 2 ^ 8 * s.status.faultCode.toNat + 2 ^ 16 * s.status.faultOp.toNat

/-- A write to STATUS clears DONE when bit 1 is 1, clears FAULT when bit 2 is 1, and changes nothing else: FAULT_CODE
and FAULT_OP keep their values (R113). -/
def Obligations.StatusWriteClearsOnlyWrittenFlags : Prop :=
  ∀ (s : State) (v : Word),
    busWrite (wordAddr 0x008) v s =
      { s with status := { s.status with
          done := if v.getLsbD 1 then false else s.status.done,
          fault := if v.getLsbD 2 then false else s.status.fault } }

/-- A CTRL write with bit 0 = 0 sets IRQ_EN to bit 1 and changes nothing else; CTRL then reads that bit in bit 1 and 0
elsewhere (R112). With it set while DONE or FAULT is already 1, irq is 1 at once (R830). -/
def Obligations.CtrlWriteSetsIrqEnable : Prop :=
  ∀ (s : State) (v : Word), v.getLsbD 0 = false →
    busWrite (wordAddr 0x004) v s = { s with irqEn := v.getLsbD 1 } ∧
    busRead (wordAddr 0x004) (busWrite (wordAddr 0x004) v s) = v &&& 2 ∧
    (busWrite (wordAddr 0x004) v s).irq = (v.getLsbD 1 && (s.status.done || s.status.fault))

/-! ## Reset -/

/-- After reset every register but ID reads 0, ID reads `0x47463801`, every other word of the window reads 0, the
engine is idle, irq is 0, and a CMD write is performed at once (R160, R902). -/
def Obligations.ResetLeavesEverythingZero : Prop :=
  (∀ addr, busRead addr State.reset = if addr = 0 then 0x47463801 else 0) ∧ State.reset.eng = .idle ∧
  State.reset.irq = false ∧ State.reset.irqEn = false ∧
  ∀ v, held (.write (wordAddr 0x00C) v) State.reset = false

/-- The reset pin and a CTRL write with bit 0 = 1 have the same effect: the reset state, whatever ran, the other
written bits ignored (R900, R901).  That the host's next accesses and the turns are kept is the model's own (log entries 3,
4). -/
def Obligations.BothResetsLeaveTheResetState : Prop :=
  ∀ s : State,
    (whoMoves s = .reset → step s = .next { State.reset with host := s.host, turns := s.turns.tail }) ∧
    (∀ v rest, whoMoves s = .host → s.host = .access (.write (wordAddr 0x004) v) :: rest → v.getLsbD 0 = true →
      step s = .next { State.reset with host := rest, turns := s.turns.tail, resp := .wrote })

/-- A reset takes precedence over a pending completion and cancels it, by the pin and by the host's CTRL write alike,
even when the command has come to its bound MAX_LATENCY: no write of the command is made and no flag is set (R820,
R900).  Which agent is listed next, the age and the host's list are the model's own (log entries 3, 4, 5, 10). -/
def Obligations.ResetPrecedesADueCompletion : Prop :=
  ∀ (s : State) (w : Word) (ts : List Turn), s.eng = .run w →
    (s.turns = .reset :: ts → step s = .next { State.reset with host := s.host, turns := ts }) ∧
    ∀ v rest, s.turns = .host :: ts → s.host = .access (.write (wordAddr 0x004) v) :: rest → v.getLsbD 0 = true →
      step s = .next { State.reset with host := rest, turns := ts, resp := .wrote }

/-! ## Invariants -/

/-- The invariant holds after reset. Reset memory lists nothing (log entry 7). -/
def Obligations.ResetMeetsTheInvariant : Prop := Inv State.reset

/-- Every step keeps the invariant: the buffers stay in their canonical form and nothing is stored outside them, FAULT
always has a cause that some rule raises, PR and OBUF hold nothing after PR_LEN and OUT_LEN, SYN_ZERO tells the truth
about SYN, and a running command is within MAX_LATENCY. The canonical form and the age are the model's own (log
entries 5, 7). The canonical form and the age are the model's own (log entries 5, 7). -/
def Obligations.InvariantIsKept : Prop := ∀ s t : State, Inv s → step s = .next t → Inv t

/-- GEN holds nothing or a generator polynomial, after reset and after every step (R520, R605, R141). -/
def Obligations.GenAlwaysHoldsAGenerator : Prop :=
  genHoldsGenerator State.reset ∧ ∀ s t : State, genHoldsGenerator s → step s = .next t → genHoldsGenerator t

/-- A platform address in the window reaches the aligned word containing it; one outside does not reach the port
(R201, R207). It holds for every value of BASE, of which the model has none. The bridge is log entry 6's. -/
def Obligations.PlatformAddressReachesTheAlignedWord : Prop :=
  (∀ off, off < 65536 → ∃ addr, platformAddr (Config.base + off) = some addr ∧ byteOffset addr = off - off % 4) ∧
  ∀ a, a < Config.base ∨ Config.base + 65536 ≤ a → platformAddr a = none
end

