-- ==== Sys2Proof/Laws/Memory.lean ====
section
/-! SUPPORT. The laws of the buffers: read after write, what a write leaves alone, and that every memory operation keeps
the canonical form. -/

namespace Sys2Proof.Machine

/-! ## Reading a list of cells -/

@[simp] theorem Memory.read_nil (x : Nat) : Memory.read [] x = 0 := rfl

theorem Memory.read_cons (a : Nat) (v : Byte) (m : Memory) (x : Nat) :
    Memory.read ((a, v) :: m) x = if a = x then v else Memory.read m x := rfl

/-- An offset no cell has reads 0. -/
theorem Memory.read_of_absent {m : Memory} {x : Nat} (h : ∀ c ∈ m, c.1 ≠ x) : Memory.read m x = 0 := by
  induction m with
  | nil => rfl
  | cons c m ih =>
    obtain ⟨a, v⟩ := c
    rw [Memory.read_cons, if_neg (by simpa using h (a, v) (by simp))]
    exact ih fun c hc => h c (by simp [hc])

/-- The first list answers, unless it has no cell at the offset. -/
theorem Memory.read_append_of_absent {m m' : Memory} {x : Nat} (h : ∀ c ∈ m, c.1 ≠ x) :
    Memory.read (m ++ m') x = Memory.read m' x := by
  induction m with
  | nil => rfl
  | cons c m ih =>
    obtain ⟨a, v⟩ := c
    rw [List.cons_append, Memory.read_cons, if_neg (by simpa using h (a, v) (by simp))]
    exact ih fun c hc => h c (by simp [hc])

theorem Memory.read_append_of_absent_right {m m' : Memory} {x : Nat} (h : ∀ c ∈ m', c.1 ≠ x) :
    Memory.read (m ++ m') x = Memory.read m x := by
  induction m with
  | nil => simpa using Memory.read_of_absent h
  | cons c m ih => obtain ⟨a, v⟩ := c; simp only [List.cons_append, Memory.read_cons, ih]

/-- Dropping cells at other offsets does not change what an offset reads. -/
theorem Memory.read_filter {m : Memory} {x : Nat} {p : Host.Cell → Bool} (h : ∀ v, p (x, v) = true) :
    Memory.read (m.filter p) x = Memory.read m x := by
  induction m with
  | nil => rfl
  | cons c m ih =>
    obtain ⟨a, v⟩ := c
    by_cases hp : p (a, v) = true
    · rw [List.filter_cons_of_pos hp]; simp only [Memory.read_cons, ih]
    · rw [List.filter_cons_of_neg hp, ih, Memory.read_cons, if_neg]
      rintro rfl; exact hp (h v)

/-! ## One entry -/

/-- A write leaves every other offset alone, on any list of cells. -/
theorem Memory.read_write_other {x y : Nat} (hxy : y ≠ x) (m : Memory) (v : Byte) :
    Memory.read (Memory.write m x v) y = Memory.read m y := by
  induction m with
  | nil => simp only [Memory.write]; split <;> simp [Memory.read_cons, hxy.symm]
  | cons c m ih =>
    obtain ⟨a, w⟩ := c
    simp only [Memory.write]
    split
    · split <;> simp [Memory.read_cons, hxy.symm]
    · split
      · rename_i _ hxa
        split <;> simp [Memory.read_cons, ← hxa, hxy.symm]
      · simp only [Memory.read_cons, ih]

theorem Memory.wf_tail {c : Host.Cell} {m : Memory} (h : Memory.wf (c :: m)) : Memory.wf m := by
  simp only [Memory.wf, List.map_cons, List.pairwise_cons, List.mem_cons, forall_eq_or_imp] at h
  exact ⟨h.1.2, h.2.2⟩

/-- In a canonical memory every cell after the first lies above it. -/
theorem Memory.lt_of_wf_cons {a : Nat} {w : Byte} {m : Memory} (h : Memory.wf ((a, w) :: m)) :
    ∀ c ∈ m, a < c.1 := by
  simp only [Memory.wf, List.map_cons, List.pairwise_cons, List.mem_map, forall_exists_index, and_imp] at h
  intro c hc
  exact h.1.1 c.1 c hc rfl

/-- Read after write. -/
theorem Memory.read_write_same {m : Memory} (h : Memory.wf m) (x : Nat) (v : Byte) :
    Memory.read (Memory.write m x v) x = v := by
  induction m with
  | nil =>
    simp only [Memory.write]
    split
    · rename_i hv; simp [hv]
    · simp [Memory.read_cons]
  | cons c m ih =>
    obtain ⟨a, w⟩ := c
    have above := Memory.lt_of_wf_cons h
    have absent : x ≤ a → ∀ c ∈ m, c.1 ≠ x := fun hx c hc => by have := above c hc; omega
    simp only [Memory.write]
    split
    · rename_i hxa
      split
      · rename_i hv
        rw [hv, Memory.read_cons, if_neg (by omega), Memory.read_of_absent (absent (by omega))]
      · simp [Memory.read_cons]
    · split
      · rename_i _ hxa
        split
        · rename_i hv
          rw [hv, Memory.read_of_absent (absent (by omega))]
        · simp [Memory.read_cons, hxa]
      · rename_i h1 h2
        rw [Memory.read_cons, if_neg (fun h => h2 h.symm)]
        exact ih (Memory.wf_tail h)

theorem Memory.mem_write {m : Memory} {x : Nat} {v : Byte} {c : Host.Cell} (h : c ∈ Memory.write m x v) :
    c ∈ m ∨ (c = (x, v) ∧ v ≠ 0) := by
  induction m with
  | nil => by_cases hv : v = 0 <;> simp_all [Memory.write]
  | cons d m ih =>
    obtain ⟨a, w⟩ := d
    simp only [Memory.write] at h
    split at h
    · split at h <;> simp_all
      tauto
    · split at h
      · split at h <;> simp_all
        tauto
      · rcases List.mem_cons.mp h with h | h
        · exact .inl (by simp [h])
        · rcases ih h with h | h
          · exact .inl (by simp [h])
          · exact .inr h

/-- Storing one entry keeps the canonical form. -/
theorem Memory.write_wf {m : Memory} (h : Memory.wf m) (x : Nat) (v : Byte) : Memory.wf (Memory.write m x v) := by
  refine ⟨?_, fun c hc => ?_⟩
  · induction m with
    | nil => simp only [Memory.write]; split <;> simp
    | cons d m ih =>
      obtain ⟨a, w⟩ := d
      have above := Memory.lt_of_wf_cons h
      have rest := (Memory.wf_tail h).1
      have lift : ∀ y, (∀ c ∈ m, y < c.1) → ∀ b ∈ m.map Prod.fst, y < b := by
        intro y hy b hb
        obtain ⟨c, hc, rfl⟩ := List.mem_map.mp hb
        exact hy c hc
      simp only [Memory.write]
      split
      · rename_i hxa
        split
        · exact h.1
        · simp only [List.map_cons, List.pairwise_cons]
          refine ⟨fun b hb => ?_, lift a above, rest⟩
          rcases List.mem_cons.mp hb with rfl | hb
          · exact hxa
          · exact lt_trans hxa (lift a above b hb)
      · split
        · split
          · exact rest
          · exact List.pairwise_cons.mpr ⟨lift a above, rest⟩
        · refine List.pairwise_cons.mpr ⟨fun b hb => ?_, ih (Memory.wf_tail h)⟩
          obtain ⟨c, hc, rfl⟩ := List.mem_map.mp hb
          rcases Memory.mem_write hc with hc | ⟨rfl, -⟩
          · exact above c hc
          · show a < x
            omega
  · rcases Memory.mem_write hc with hc | ⟨rfl, hv⟩
    · exact h.2 c hc
    · exact hv

/-! ## A whole buffer -/

/-- The cells of a run lie in its words. -/
theorem Memory.mem_cells {o : Nat} {vs : List Byte} {c : Host.Cell} (h : c ∈ Memory.cells o vs) :
    ∃ i, i < vs.length ∧ c.1 = o + 4 * i ∧ c.2 ≠ 0 := by
  induction vs generalizing o with
  | nil => simp [Memory.cells] at h
  | cons v vs ih =>
    simp only [Memory.cells] at h
    split at h
    · obtain ⟨i, hi, h1, h2⟩ := ih h
      exact ⟨i + 1, by simpa using hi, by omega, h2⟩
    · rename_i hv
      rcases List.mem_cons.mp h with rfl | h
      · exact ⟨0, by simp, by simp, hv⟩
      · obtain ⟨i, hi, h1, h2⟩ := ih h
        exact ⟨i + 1, by simpa using hi, by omega, h2⟩

theorem Memory.read_cells (o : Nat) (vs : List Byte) (i : Nat) :
    Memory.read (Memory.cells o vs) (o + 4 * i) = vs.getD i 0 := by
  induction vs generalizing o i with
  | nil => simp [Memory.cells]
  | cons v vs ih =>
    have later : ∀ c ∈ Memory.cells (o + 4) vs, c.1 ≠ o := by
      intro c hc
      obtain ⟨j, -, hj, -⟩ := Memory.mem_cells hc
      omega
    cases i with
    | zero =>
      simp only [Memory.cells]
      split
      · rename_i hv
        simpa [hv] using Memory.read_of_absent later
      · simp [Memory.read_cons]
    | succ i =>
      have h := ih (o + 4) i
      rw [show o + 4 + 4 * i = o + 4 * (i + 1) by omega] at h
      simp only [Memory.cells]
      split
      · simpa using h
      · rw [Memory.read_cons, if_neg (by omega)]
        simpa using h

theorem Memory.cells_pairwise (o : Nat) (vs : List Byte) : ((Memory.cells o vs).map Prod.fst).Pairwise (· < ·) := by
  induction vs generalizing o with
  | nil => simp [Memory.cells]
  | cons v vs ih =>
    simp only [Memory.cells]
    split
    · exact ih (o + 4)
    · refine List.pairwise_cons.mpr ⟨fun b hb => ?_, ih (o + 4)⟩
      obtain ⟨c, hc, rfl⟩ := List.mem_map.mp hb
      obtain ⟨i, -, hi, -⟩ := Memory.mem_cells hc
      show o < c.1
      omega

theorem Memory.mem_fill {m : Memory} {o n : Nat} {vs : List Byte} {c : Host.Cell} (h : c ∈ Memory.fill m o n vs) :
    (c ∈ m ∧ (c.1 < o ∨ o + 4 * n ≤ c.1)) ∨ ∃ i, i < n ∧ c.1 = o + 4 * i ∧ c.2 ≠ 0 := by
  simp only [Memory.fill, List.mem_append, List.mem_filter, decide_eq_true_eq] at h
  rcases h with (h | h) | h
  · exact .inl ⟨h.1, .inl h.2⟩
  · obtain ⟨i, hi, h1, h2⟩ := Memory.mem_cells h
    exact .inr ⟨i, by simp at hi; omega, h1, h2⟩
  · exact .inl ⟨h.1, .inr h.2⟩

/-- After a buffer is replaced, its word `i` holds value `i`, or 0 when there is none. -/
theorem Memory.read_fill_inside (m : Memory) (o n : Nat) (vs : List Byte) {i : Nat} (hi : i < n) :
    Memory.read (Memory.fill m o n vs) (o + 4 * i) = vs.getD i 0 := by
  unfold Memory.fill
  rw [Memory.read_append_of_absent_right, Memory.read_append_of_absent, Memory.read_cells]
  · simp [List.getD_eq_getElem?_getD, hi]
  · intro c hc
    have := (List.mem_filter.mp hc).2
    simp only [decide_eq_true_eq] at this
    omega
  · intro c hc
    have := (List.mem_filter.mp hc).2
    simp only [decide_eq_true_eq] at this
    omega

/-- Replacing a buffer leaves every offset outside its words alone. -/
theorem Memory.read_fill_outside (m : Memory) (o n : Nat) (vs : List Byte) {x : Nat}
    (hx : x < o ∨ o + 4 * n ≤ x) : Memory.read (Memory.fill m o n vs) x = Memory.read m x := by
  have cells : ∀ c ∈ Memory.cells o (vs.take n), c.1 ≠ x := by
    intro c hc
    obtain ⟨i, hi, h1, -⟩ := Memory.mem_cells hc
    simp at hi
    omega
  unfold Memory.fill
  rw [List.append_assoc]
  rcases hx with hx | hx
  · rw [Memory.read_append_of_absent_right, Memory.read_filter (by simpa using hx)]
    intro c hc
    rcases List.mem_append.mp hc with hc | hc
    · exact cells c hc
    · have := (List.mem_filter.mp hc).2
      simp only [decide_eq_true_eq] at this
      omega
  · rw [Memory.read_append_of_absent, Memory.read_append_of_absent cells, Memory.read_filter (by simpa using hx)]
    intro c hc
    have := (List.mem_filter.mp hc).2
    simp only [decide_eq_true_eq] at this
    omega

/-- Replacing a buffer keeps the canonical form. -/
theorem Memory.fill_wf {m : Memory} (h : Memory.wf m) (o n : Nat) (vs : List Byte) :
    Memory.wf (Memory.fill m o n vs) := by
  have sub : ∀ p : Host.Cell → Bool, ((m.filter p).map Prod.fst).Pairwise (· < ·) := fun p =>
    h.1.sublist (List.filter_sublist.map _)
  refine ⟨?_, fun c hc => ?_⟩
  · simp only [Memory.fill, List.map_append, List.pairwise_append]
    refine ⟨⟨sub _, Memory.cells_pairwise _ _, ?_⟩, sub _, ?_⟩
    · intro a ha b hb
      obtain ⟨c, hc, rfl⟩ := List.mem_map.mp ha
      obtain ⟨d, hd, rfl⟩ := List.mem_map.mp hb
      obtain ⟨i, -, hi, -⟩ := Memory.mem_cells hd
      have := (List.mem_filter.mp hc).2
      simp only [decide_eq_true_eq] at this
      omega
    · intro a ha b hb
      obtain ⟨d, hd, rfl⟩ := List.mem_map.mp hb
      have hd := (List.mem_filter.mp hd).2
      simp only [decide_eq_true_eq] at hd
      rcases List.mem_append.mp ha with ha | ha
      · obtain ⟨c, hc, rfl⟩ := List.mem_map.mp ha
        have := (List.mem_filter.mp hc).2
        simp only [decide_eq_true_eq] at this
        omega
      · obtain ⟨c, hc, rfl⟩ := List.mem_map.mp ha
        obtain ⟨i, hi, h1, -⟩ := Memory.mem_cells hc
        simp at hi
        omega
  · rcases Memory.mem_fill hc with ⟨hc, -⟩ | ⟨i, -, -, hv⟩
    · exact h.2 c hc
    · exact hv

theorem Memory.wf_nil : Memory.wf [] := by simp [Memory.wf]

/-- The reset memory is canonical. -/
theorem State.reset_mem_wf : Memory.wf State.reset.mem := Memory.wf_nil

/-! ## Entries of buffers -/

/-- Two different buffers share no word. -/
theorem Buf.offset_outside {b b' : Buf} (h : b' ≠ b) {i : Nat} (hi : i < b'.size) :
    b'.offset i < b.base ∨ b.base + 4 * b.size ≤ b'.offset i := by
  cases b <;> cases b' <;>
    simp_all [Buf.offset, Buf.base, Buf.size, Config.polyMax, Config.prSize, Config.bufSize] <;> omega

theorem Buf.offset_inj {b b' : Buf} {i i' : Nat} (hi : i < b.size) (hi' : i' < b'.size)
    (h : b.offset i = b'.offset i') : b = b' ∧ i = i' := by
  by_cases hb : b = b'
  · subst hb
    simp only [Buf.offset] at h
    exact ⟨rfl, by omega⟩
  · have := Buf.offset_outside hb hi
    simp only [Buf.offset] at h this
    omega

/-- A replaced buffer holds the new values, and 0 after them. -/
theorem State.entry_setBuf_same (s : State) (b : Buf) (vs : List Byte) {i : Nat} (hi : i < b.size) :
    (s.setBuf b vs).entry b i = vs.getD i 0 := Memory.read_fill_inside _ _ _ _ hi

/-- Replacing a buffer leaves every entry of another alone. -/
theorem State.entry_setBuf_other (s : State) {b b' : Buf} (h : b' ≠ b) (vs : List Byte) {i : Nat}
    (hi : i < b'.size) : (s.setBuf b vs).entry b' i = s.entry b' i :=
  Memory.read_fill_outside _ _ _ _ (Buf.offset_outside h hi)

theorem State.entry_setEntry_same {s : State} (h : Memory.wf s.mem) (b : Buf) (i : Nat) (v : Byte) :
    (s.setEntry b i v).entry b i = v := Memory.read_write_same h _ _

theorem State.entry_setEntry_other (s : State) {b b' : Buf} {i i' : Nat} (hi : i < b.size) (hi' : i' < b'.size)
    (h : b' ≠ b ∨ i' ≠ i) (v : Byte) : (s.setEntry b i v).entry b' i' = s.entry b' i' := by
  refine Memory.read_write_other (fun e => ?_) _ _
  obtain ⟨h1, h2⟩ := Buf.offset_inj hi' hi e
  rcases h with h | h
  · exact h h1
  · exact h h2

/-- An entry depends on the memory alone. -/
theorem State.entry_congr {s t : State} (h : s.mem = t.mem) (b : Buf) (i : Nat) : s.entry b i = t.entry b i := by
  simp [State.entry, h]

@[simp] theorem State.entries_length (s : State) (b : Buf) (i n : Nat) : (s.entries b i n).length = n := by
  simp [State.entries]

theorem State.entries_getD (s : State) (b : Buf) (i n j : Nat) (hj : j < n) :
    (s.entries b i n).getD j 0 = s.entry b (i + j) := by
  simp [State.entries, List.getD_eq_getElem?_getD, hj]

end Sys2Proof.Machine
end

