-- ==== Sys2Proof/Laws/State.lean ====
section
/-! SUPPORT. What each update of the state does to each field, true by unfolding, so that no proof unfolds a record
update. -/

namespace Sys2Proof.Machine

/-! ## toIdle -/

@[simp] theorem State.toIdle_eng (s : State) : s.toIdle.eng = .idle := rfl
@[simp] theorem State.toIdle_irqEn (s : State) : s.toIdle.irqEn = s.irqEn := rfl
@[simp] theorem State.toIdle_status (s : State) : s.toIdle.status = s.status := rfl
@[simp] theorem State.toIdle_ops (s : State) : s.toIdle.ops = s.ops := rfl
@[simp] theorem State.toIdle_res (s : State) : s.toIdle.res = s.res := rfl
@[simp] theorem State.toIdle_mem (s : State) : s.toIdle.mem = s.mem := rfl
@[simp] theorem State.toIdle_resp (s : State) : s.toIdle.resp = s.resp := rfl
@[simp] theorem State.toIdle_age (s : State) : s.toIdle.age = 0 := rfl
@[simp] theorem State.toIdle_host (s : State) : s.toIdle.host = s.host := rfl
@[simp] theorem State.toIdle_turns (s : State) : s.toIdle.turns = s.turns := rfl

/-! ## withDone -/

@[simp] theorem State.withDone_eng (s : State) : s.withDone.eng = .idle := rfl
@[simp] theorem State.withDone_irqEn (s : State) : s.withDone.irqEn = s.irqEn := rfl
@[simp] theorem State.withDone_status (s : State) : s.withDone.status = s.status.setDone := rfl
@[simp] theorem State.withDone_ops (s : State) : s.withDone.ops = s.ops := rfl
@[simp] theorem State.withDone_res (s : State) : s.withDone.res = s.res := rfl
@[simp] theorem State.withDone_mem (s : State) : s.withDone.mem = s.mem := rfl
@[simp] theorem State.withDone_resp (s : State) : s.withDone.resp = s.resp := rfl
@[simp] theorem State.withDone_age (s : State) : s.withDone.age = 0 := rfl
@[simp] theorem State.withDone_host (s : State) : s.withDone.host = s.host := rfl
@[simp] theorem State.withDone_turns (s : State) : s.withDone.turns = s.turns := rfl

/-! ## withFault -/

@[simp] theorem State.withFault_eng (s : State) (c : FaultCode) (op : BitVec 8) : (s.withFault c op).eng = .idle := rfl
@[simp] theorem State.withFault_irqEn (s : State) (c : FaultCode) (op : BitVec 8) : (s.withFault c op).irqEn = s.irqEn := rfl
@[simp] theorem State.withFault_status (s : State) (c : FaultCode) (op : BitVec 8) : (s.withFault c op).status = s.status.setFault c op := rfl
@[simp] theorem State.withFault_ops (s : State) (c : FaultCode) (op : BitVec 8) : (s.withFault c op).ops = s.ops := rfl
@[simp] theorem State.withFault_res (s : State) (c : FaultCode) (op : BitVec 8) : (s.withFault c op).res = s.res := rfl
@[simp] theorem State.withFault_mem (s : State) (c : FaultCode) (op : BitVec 8) : (s.withFault c op).mem = s.mem := rfl
@[simp] theorem State.withFault_resp (s : State) (c : FaultCode) (op : BitVec 8) : (s.withFault c op).resp = s.resp := rfl
@[simp] theorem State.withFault_age (s : State) (c : FaultCode) (op : BitVec 8) : (s.withFault c op).age = 0 := rfl
@[simp] theorem State.withFault_host (s : State) (c : FaultCode) (op : BitVec 8) : (s.withFault c op).host = s.host := rfl
@[simp] theorem State.withFault_turns (s : State) (c : FaultCode) (op : BitVec 8) : (s.withFault c op).turns = s.turns := rfl

/-! ## setEntry -/

@[simp] theorem State.setEntry_eng (s : State) (b : Buf) (i : Nat) (v : Byte) : (s.setEntry b i v).eng = s.eng := rfl
@[simp] theorem State.setEntry_irqEn (s : State) (b : Buf) (i : Nat) (v : Byte) : (s.setEntry b i v).irqEn = s.irqEn := rfl
@[simp] theorem State.setEntry_status (s : State) (b : Buf) (i : Nat) (v : Byte) : (s.setEntry b i v).status = s.status := rfl
@[simp] theorem State.setEntry_ops (s : State) (b : Buf) (i : Nat) (v : Byte) : (s.setEntry b i v).ops = s.ops := rfl
@[simp] theorem State.setEntry_res (s : State) (b : Buf) (i : Nat) (v : Byte) : (s.setEntry b i v).res = s.res := rfl
@[simp] theorem State.setEntry_mem (s : State) (b : Buf) (i : Nat) (v : Byte) : (s.setEntry b i v).mem = Memory.write s.mem (b.offset i) v := rfl
@[simp] theorem State.setEntry_resp (s : State) (b : Buf) (i : Nat) (v : Byte) : (s.setEntry b i v).resp = s.resp := rfl
@[simp] theorem State.setEntry_age (s : State) (b : Buf) (i : Nat) (v : Byte) : (s.setEntry b i v).age = s.age := rfl
@[simp] theorem State.setEntry_host (s : State) (b : Buf) (i : Nat) (v : Byte) : (s.setEntry b i v).host = s.host := rfl
@[simp] theorem State.setEntry_turns (s : State) (b : Buf) (i : Nat) (v : Byte) : (s.setEntry b i v).turns = s.turns := rfl

/-! ## setBuf -/

@[simp] theorem State.setBuf_eng (s : State) (b : Buf) (vs : List Byte) : (s.setBuf b vs).eng = s.eng := rfl
@[simp] theorem State.setBuf_irqEn (s : State) (b : Buf) (vs : List Byte) : (s.setBuf b vs).irqEn = s.irqEn := rfl
@[simp] theorem State.setBuf_status (s : State) (b : Buf) (vs : List Byte) : (s.setBuf b vs).status = s.status := rfl
@[simp] theorem State.setBuf_ops (s : State) (b : Buf) (vs : List Byte) : (s.setBuf b vs).ops = s.ops := rfl
@[simp] theorem State.setBuf_res (s : State) (b : Buf) (vs : List Byte) : (s.setBuf b vs).res = s.res := rfl
@[simp] theorem State.setBuf_mem (s : State) (b : Buf) (vs : List Byte) : (s.setBuf b vs).mem = Memory.fill s.mem b.base b.size vs := rfl
@[simp] theorem State.setBuf_resp (s : State) (b : Buf) (vs : List Byte) : (s.setBuf b vs).resp = s.resp := rfl
@[simp] theorem State.setBuf_age (s : State) (b : Buf) (vs : List Byte) : (s.setBuf b vs).age = s.age := rfl
@[simp] theorem State.setBuf_host (s : State) (b : Buf) (vs : List Byte) : (s.setBuf b vs).host = s.host := rfl
@[simp] theorem State.setBuf_turns (s : State) (b : Buf) (vs : List Byte) : (s.setBuf b vs).turns = s.turns := rfl

/-! ## setResult -/

@[simp] theorem State.setResult_eng (s : State) (r : Byte) : (s.setResult r).eng = s.eng := rfl
@[simp] theorem State.setResult_irqEn (s : State) (r : Byte) : (s.setResult r).irqEn = s.irqEn := rfl
@[simp] theorem State.setResult_status (s : State) (r : Byte) : (s.setResult r).status = s.status := rfl
@[simp] theorem State.setResult_ops (s : State) (r : Byte) : (s.setResult r).ops = s.ops := rfl
@[simp] theorem State.setResult_res (s : State) (r : Byte) : (s.setResult r).res = { s.res with result := r } := rfl
@[simp] theorem State.setResult_mem (s : State) (r : Byte) : (s.setResult r).mem = s.mem := rfl
@[simp] theorem State.setResult_resp (s : State) (r : Byte) : (s.setResult r).resp = s.resp := rfl
@[simp] theorem State.setResult_age (s : State) (r : Byte) : (s.setResult r).age = s.age := rfl
@[simp] theorem State.setResult_host (s : State) (r : Byte) : (s.setResult r).host = s.host := rfl
@[simp] theorem State.setResult_turns (s : State) (r : Byte) : (s.setResult r).turns = s.turns := rfl

/-! ## resetBlock -/

@[simp] theorem State.resetBlock_eng (s : State) : s.resetBlock.eng = .idle := rfl
@[simp] theorem State.resetBlock_irqEn (s : State) : s.resetBlock.irqEn = false := rfl
@[simp] theorem State.resetBlock_status (s : State) : s.resetBlock.status = .reset := rfl
@[simp] theorem State.resetBlock_ops (s : State) : s.resetBlock.ops = .reset := rfl
@[simp] theorem State.resetBlock_res (s : State) : s.resetBlock.res = .reset := rfl
@[simp] theorem State.resetBlock_mem (s : State) : s.resetBlock.mem = [] := rfl
@[simp] theorem State.resetBlock_resp (s : State) : s.resetBlock.resp = .notReady := rfl
@[simp] theorem State.resetBlock_age (s : State) : s.resetBlock.age = 0 := rfl
@[simp] theorem State.resetBlock_host (s : State) : s.resetBlock.host = s.host := rfl
@[simp] theorem State.resetBlock_turns (s : State) : s.resetBlock.turns = s.turns := rfl

/-! ## tick -/

@[simp] theorem State.tick_eng (s : State) : s.tick.eng = s.eng := rfl
@[simp] theorem State.tick_irqEn (s : State) : s.tick.irqEn = s.irqEn := rfl
@[simp] theorem State.tick_status (s : State) : s.tick.status = s.status := rfl
@[simp] theorem State.tick_ops (s : State) : s.tick.ops = s.ops := rfl
@[simp] theorem State.tick_res (s : State) : s.tick.res = s.res := rfl
@[simp] theorem State.tick_mem (s : State) : s.tick.mem = s.mem := rfl
@[simp] theorem State.tick_resp (s : State) : s.tick.resp = .notReady := rfl
@[simp] theorem State.tick_age (s : State) : s.tick.age = if s.busy then s.age + 1 else s.age := rfl
@[simp] theorem State.tick_host (s : State) : s.tick.host = s.host := rfl
@[simp] theorem State.tick_turns (s : State) : s.tick.turns = s.turns.tail := rfl

/-! ## startCommand -/

@[simp] theorem startCommand_eng (s : State) (v : Word) : (startCommand v s).eng = .run v := rfl
@[simp] theorem startCommand_irqEn (s : State) (v : Word) : (startCommand v s).irqEn = s.irqEn := rfl
@[simp] theorem startCommand_status (s : State) (v : Word) : (startCommand v s).status = s.status := rfl
@[simp] theorem startCommand_ops (s : State) (v : Word) : (startCommand v s).ops = s.ops := rfl
@[simp] theorem startCommand_res (s : State) (v : Word) : (startCommand v s).res = s.res := rfl
@[simp] theorem startCommand_mem (s : State) (v : Word) : (startCommand v s).mem = s.mem := rfl
@[simp] theorem startCommand_resp (s : State) (v : Word) : (startCommand v s).resp = s.resp := rfl
@[simp] theorem startCommand_age (s : State) (v : Word) : (startCommand v s).age = 0 := rfl
@[simp] theorem startCommand_host (s : State) (v : Word) : (startCommand v s).host = s.host := rfl
@[simp] theorem startCommand_turns (s : State) (v : Word) : (startCommand v s).turns = s.turns := rfl

/-! ## writeStatus -/

@[simp] theorem writeStatus_eng (s : State) (v : Word) : (writeStatus v s).eng = s.eng := rfl
@[simp] theorem writeStatus_irqEn (s : State) (v : Word) : (writeStatus v s).irqEn = s.irqEn := rfl
@[simp] theorem writeStatus_status (s : State) (v : Word) : (writeStatus v s).status = s.status.writeOneToClear v := rfl
@[simp] theorem writeStatus_ops (s : State) (v : Word) : (writeStatus v s).ops = s.ops := rfl
@[simp] theorem writeStatus_res (s : State) (v : Word) : (writeStatus v s).res = s.res := rfl
@[simp] theorem writeStatus_mem (s : State) (v : Word) : (writeStatus v s).mem = s.mem := rfl
@[simp] theorem writeStatus_resp (s : State) (v : Word) : (writeStatus v s).resp = s.resp := rfl
@[simp] theorem writeStatus_age (s : State) (v : Word) : (writeStatus v s).age = s.age := rfl
@[simp] theorem writeStatus_host (s : State) (v : Word) : (writeStatus v s).host = s.host := rfl
@[simp] theorem writeStatus_turns (s : State) (v : Word) : (writeStatus v s).turns = s.turns := rfl

/-! ## Status -/

@[simp] theorem Status.setDone_done (st : Status) : st.setDone.done = true := rfl
@[simp] theorem Status.setDone_fault (st : Status) : st.setDone.fault = st.fault := rfl
@[simp] theorem Status.setDone_synZero (st : Status) : st.setDone.synZero = st.synZero := rfl
@[simp] theorem Status.setDone_faultCode (st : Status) : st.setDone.faultCode = st.faultCode := rfl
@[simp] theorem Status.setDone_faultOp (st : Status) : st.setDone.faultOp = st.faultOp := rfl

@[simp] theorem Status.setFault_done (st : Status) (c : FaultCode) (op : BitVec 8) : (st.setFault c op).done = st.done := rfl
@[simp] theorem Status.setFault_fault (st : Status) (c : FaultCode) (op : BitVec 8) : (st.setFault c op).fault = true := rfl
@[simp] theorem Status.setFault_synZero (st : Status) (c : FaultCode) (op : BitVec 8) : (st.setFault c op).synZero = st.synZero := rfl
@[simp] theorem Status.setFault_faultCode (st : Status) (c : FaultCode) (op : BitVec 8) : (st.setFault c op).faultCode = c.code := rfl
@[simp] theorem Status.setFault_faultOp (st : Status) (c : FaultCode) (op : BitVec 8) : (st.setFault c op).faultOp = op := rfl

@[simp] theorem Status.setSynZero_done (st : Status) (z : Bool) : (st.setSynZero z).done = st.done := rfl
@[simp] theorem Status.setSynZero_fault (st : Status) (z : Bool) : (st.setSynZero z).fault = st.fault := rfl
@[simp] theorem Status.setSynZero_synZero (st : Status) (z : Bool) : (st.setSynZero z).synZero = z := rfl
@[simp] theorem Status.setSynZero_faultCode (st : Status) (z : Bool) : (st.setSynZero z).faultCode = st.faultCode := rfl
@[simp] theorem Status.setSynZero_faultOp (st : Status) (z : Bool) : (st.setSynZero z).faultOp = st.faultOp := rfl

@[simp] theorem Status.writeOneToClear_done (st : Status) (v : Word) : (st.writeOneToClear v).done = (st.done && !v.getLsbD 1) := rfl
@[simp] theorem Status.writeOneToClear_fault (st : Status) (v : Word) : (st.writeOneToClear v).fault = (st.fault && !v.getLsbD 2) := rfl
@[simp] theorem Status.writeOneToClear_synZero (st : Status) (v : Word) : (st.writeOneToClear v).synZero = st.synZero := rfl
@[simp] theorem Status.writeOneToClear_faultCode (st : Status) (v : Word) : (st.writeOneToClear v).faultCode = st.faultCode := rfl
@[simp] theorem Status.writeOneToClear_faultOp (st : Status) (v : Word) : (st.writeOneToClear v).faultOp = st.faultOp := rfl

/-! ## BUSY -/

theorem State.busy_iff (s : State) : s.busy = true ↔ ∃ v, s.eng = .run v := by
  cases h : s.eng <;> simp [State.busy, h]

theorem State.busy_of_idle {s : State} (h : s.eng = .idle) : s.busy = false := by simp [State.busy, h]

theorem State.busy_of_run {s : State} {v : Word} (h : s.eng = .run v) : s.busy = true := by simp [State.busy, h]

@[simp] theorem State.tick_busy (s : State) : s.tick.busy = s.busy := rfl

end Sys2Proof.Machine
end

