-- ==== Sys2Proof/Laws/Bus.lean ====
section
/-! SUPPORT. Everything a host write, a host turn and a step can do, said once. -/

namespace Sys2Proof.Machine

/-! ## The address map -/

/-- A register is at its own offset. -/
theorem target_reg_offset {addr : BitVec 14} {r : Reg} (h : target addr = .reg r) : byteOffset addr = r.offset := by
  unfold target at h
  split at h
  · rename_i r' hr
    obtain rfl : r' = r := by simpa using h
    have := List.find?_some hr
    simp only [beq_iff_eq] at this
    exact this.symm
  · split at h <;> cases h

/-- An entry's word is at its own offset, and the buffer has the entry. -/
theorem target_entry_offset {addr : BitVec 14} {b : Buf} {i : Nat} (h : target addr = .entry b i) :
    i < b.size ∧ byteOffset addr = b.offset i := by
  unfold target at h
  split at h
  · cases h
  · split at h
    · rename_i b' hb
      simp only [Target.entry.injEq] at h
      obtain ⟨rfl, rfl⟩ := h
      have hc := List.find?_some hb
      have h4 : byteOffset addr % 4 = 0 := by simp [byteOffset]
      have hbase : b'.base % 4 = 0 := by cases b' <;> rfl
      simp only [Buf.covers, Bool.and_eq_true, decide_eq_true_eq] at hc
      simp only [Buf.offset]
      omega
    · cases h

theorem byteOffset_inj {a a' : BitVec 14} (h : byteOffset a = byteOffset a') : a = a' := by
  apply BitVec.eq_of_toNat_eq
  simp only [byteOffset] at h
  omega

theorem wordAddr_byteOffset (a : BitVec 14) : wordAddr (byteOffset a) = a := by
  apply BitVec.eq_of_toNat_eq
  simp [wordAddr, byteOffset]

theorem byteOffset_wordAddr {off : Nat} (h : off < 65536) : byteOffset (wordAddr off) = off - off % 4 := by
  simp only [wordAddr, byteOffset, BitVec.toNat_ofNat]
  omega

/-! ## Host writes -/

/-- Everything a host write can do to the block: by its target, a reset, IRQ_EN, the flags, a command start, one operand
register, one entry of a RW buffer, or nothing. -/
theorem busWrite_cases (addr : BitVec 14) (v : Word) (s : State) :
    (addr = wordAddr 0x004 ∧ v.getLsbD 0 = true ∧ busWrite addr v s = s.resetBlock) ∨
    (addr = wordAddr 0x004 ∧ v.getLsbD 0 = false ∧ busWrite addr v s = { s with irqEn := v.getLsbD 1 }) ∨
    (addr = wordAddr 0x008 ∧ busWrite addr v s = writeStatus v s) ∨
    (addr = wordAddr 0x00C ∧ busWrite addr v s = startCommand v s) ∨
    (∃ r, target addr = .reg r ∧ busWrite addr v s = { s with ops := s.ops.write r v }) ∨
    (∃ b i, b.hostWrites = true ∧ i < b.size ∧ byteOffset addr = b.offset i ∧
      busWrite addr v s = s.setEntry b i (v.setWidth 8)) ∨
    busWrite addr v s = s := by
  have place : ∀ r, target addr = .reg r → addr = wordAddr r.offset := fun r h => by
    rw [← target_reg_offset h, wordAddr_byteOffset]
  unfold busWrite
  cases h : target addr with
  | reg r =>
    cases r <;> simp only [writeReg]
    case ctrl =>
      unfold writeCtrl
      cases hv : v.getLsbD 0
      · exact .inr (.inl ⟨place _ h, rfl, rfl⟩)
      · exact .inl ⟨place _ h, rfl, rfl⟩
    case status => exact .inr (.inr (.inl ⟨place _ h, trivial⟩))
    case cmd => exact .inr (.inr (.inr (.inl ⟨place _ h, trivial⟩)))
    all_goals exact .inr (.inr (.inr (.inr (.inl ⟨_, rfl, rfl⟩))))
  | entry b i =>
    simp only
    split
    · rename_i hb
      obtain ⟨hi, ho⟩ := target_entry_offset h
      exact .inr (.inr (.inr (.inr (.inr (.inl ⟨b, i, hb, hi, ho, rfl⟩)))))
    · simp
  | reserved => simp

/-! ## The host's turn -/

/-- Everything the host's turn can do: nothing when it asks for nothing or its access is held, else its access. -/
theorem hostTurn_cases (s : State) :
    hostTurn s = s ∨
    (∃ op rest addr, s.host = op :: rest ∧ op.access' = .read addr ∧
      hostTurn s = { s with resp := .data (busRead addr s), host := if op.again s then op :: rest else rest }) ∨
    (∃ rest addr v, s.host = .access (.write addr v) :: rest ∧ held (.write addr v) s = false ∧
      hostTurn s = { busWrite addr v s with resp := .wrote, host := rest }) := by
  unfold hostTurn
  cases hh : s.host with
  | nil => simp
  | cons op rest =>
    simp only
    split
    · simp
    · rename_i hheld
      cases hop : op.access' with
      | read addr =>
        refine .inr (.inl ⟨op, rest, addr, rfl, hop, ?_⟩)
        simp [perform]
      | write addr v =>
        cases op with
        | wait => simp [HostOp.access'] at hop
        | access a =>
          simp only [HostOp.access'] at hop
          subst hop
          refine .inr (.inr ⟨rest, addr, v, rfl, by simpa [HostOp.access'] using hheld, ?_⟩)
          simp [perform, HostOp.again]

/-! ## A step -/

/-- Everything a step can do, by who moves. -/
theorem step_cases (s : State) :
    (whoMoves s = .reset ∧ step s = .next s.tick.resetBlock) ∨
    (whoMoves s = .engine ∧ s.eng = .idle ∧ step s = .next s.tick) ∨
    (∃ v i, whoMoves s = .engine ∧ s.eng = .run v ∧ decode v = .command i ∧ step s = exec i s.tick) ∨
    (∃ v why, whoMoves s = .engine ∧ s.eng = .run v ∧ decode v = .illegal why ∧
      step s = .next (s.tick.withFault .illegalCommand (v.extractLsb' 0 8))) ∨
    (whoMoves s = .host ∧ step s = .next (hostTurn s.tick)) := by
  unfold step
  cases hw : whoMoves s with
  | reset => simp
  | host => simp
  | engine =>
    simp only [engineTurn, State.tick_eng]
    cases he : s.eng with
    | idle => simp
    | run v =>
      simp only [complete]
      cases hd : decode v with
      | command i => exact .inr (.inr (.inl ⟨v, i, trivial, rfl, hd, rfl⟩))
      | illegal why => exact .inr (.inr (.inr (.inl ⟨v, why, trivial, rfl, hd, rfl⟩)))

/-- The host moves while a command runs only when the command has a step left after this one, or to reset the
block (R820). -/
theorem whoMoves_host_of_busy {s : State} (h : whoMoves s = .host) (hb : s.busy = true) :
    s.age + 1 < Config.maxLatency ∨ resetAsked s = true := by
  unfold whoMoves at h
  split at h
  · cases h
  · cases h
  · split at h
    · cases h
    · rename_i hm
      cases hr : resetAsked s with
      | true => exact .inr rfl
      | false =>
        simp only [completionDue, hb, hr, Bool.true_and, Bool.not_false, Bool.and_true, decide_eq_true_eq] at hm
        exact .inl (by omega)
  · cases hr : resetAsked s with
    | true => exact .inr rfl
    | false => simp [hb, hr] at h

/-- What a soft reset at the head of the host's list is (R112). -/
theorem resetAsked_iff (s : State) :
    resetAsked s = true ↔
      ∃ v rest, s.host = .access (.write (wordAddr Reg.ctrl.offset) v) :: rest ∧ v.getLsbD 0 = true := by
  constructor
  · intro h
    unfold resetAsked at h
    split at h
    · rename_i addr v rest hh
      rw [Bool.and_eq_true, beq_iff_eq] at h
      exact ⟨v, rest, by rw [hh, ← h.1, wordAddr_byteOffset], h.2⟩
    · cases h
  · rintro ⟨v, rest, hh, hv⟩
    rw [resetAsked, hh]
    simp only [hv, Bool.and_true]
    decide

/-- A soft reset is never held, and its step is the reset (R210, R900). -/
theorem hostTurn_of_resetAsked {s : State} (h : resetAsked s = true) :
    hostTurn s = { s.resetBlock with resp := .wrote, host := s.host.tail } := by
  obtain ⟨v, rest, hh, hv⟩ := (resetAsked_iff s).mp h
  have hheld : held (.write (wordAddr Reg.ctrl.offset) v) s = false := by
    simp [held, Access.addr, Reg.offset, byteOffset, wordAddr]
  have ht : target (wordAddr Reg.ctrl.offset) = .reg .ctrl := by decide
  simp only [hostTurn, hh, HostOp.access', hheld, perform, HostOp.again, busWrite, ht, writeReg, writeCtrl, hv]
  simp

/-- A performed write is one step: what the host wrote, from the state one turn later (R208). -/
theorem hostTurn_of_write {s : State} {addr : BitVec 14} {v : Word} {rest : List HostOp}
    (hh : s.host = .access (.write addr v) :: rest) (hheld : held (.write addr v) s = false) :
    hostTurn s = { busWrite addr v s with resp := .wrote, host := rest } := by
  simp [hostTurn, hh, HostOp.access', hheld, perform, HostOp.again]

/-! ## Reads -/

/-- A read looks at the registers and the buffers only. -/
theorem busRead_congr {s t : State} (addr : BitVec 14) (h1 : s.eng = t.eng) (h2 : s.irqEn = t.irqEn)
    (h3 : s.status = t.status) (h4 : s.ops = t.ops) (h5 : s.res = t.res) (h6 : s.mem = t.mem) :
    busRead addr s = busRead addr t := by
  unfold busRead
  cases target addr with
  | reg r => cases r <;> simp [readReg, ctrlWord, statusWord, State.busy, fmtBit, State.entry, *]
  | entry b i => simp [State.entry, h6]
  | reserved => rfl

/-- BUSY is bit 0 of STATUS (R113). -/
theorem statusWord_bit0 (s : State) : (statusWord s).getLsbD 0 = s.busy := by
  show BitVec.getLsbD (_ ++ BitVec.ofBool s.busy) 0 = _
  rw [BitVec.getLsbD_append]
  simp

/-- A field stored and read back is the written word's low bits (R110). -/
theorem setWidth_setWidth_eq_and (v : Word) {n : Nat} (hn : n ≤ 32) :
    (v.setWidth n).setWidth 32 = v &&& BitVec.ofNat 32 (2 ^ n - 1) := by
  apply BitVec.eq_of_toNat_eq
  have h1 : 2 ^ n ≤ 2 ^ 32 := Nat.pow_le_pow_right (by norm_num) hn
  have h2 : 0 < 2 ^ n := Nat.two_pow_pos n
  rw [BitVec.toNat_and, BitVec.toNat_ofNat, Nat.mod_eq_of_lt (by omega), Nat.and_two_pow_sub_one_eq_mod,
    BitVec.toNat_setWidth, BitVec.toNat_setWidth, Nat.mod_eq_of_lt]
  exact lt_of_lt_of_le (Nat.mod_lt _ h2) h1

/-- Where the words of the buffers lie (R141). -/
theorem Buf.offset_bounds {b : Buf} {i : Nat} (h : i < b.size) :
    b.offset i < 65536 ∧ 0x1000 ≤ b.offset i ∧ b.offset i % 4 = 0 := by
  cases b <;> simp [Buf.offset, Buf.base, Buf.size, Config.polyMax, Config.prSize, Config.bufSize] at * <;> omega

end Sys2Proof.Machine
end

