-- ==== Sys2Proof/Laws/Commands.lean ====
section
/-! SUPPORT. Everything a command can do, said once: the checks, the two ends of a command, and the one effect of each
command. -/

namespace Sys2Proof.Machine

/-! ## The checks -/

theorem firstFailing_eq_none {cs : List (Bool × FaultCode)} :
    firstFailing cs = none ↔ ∀ p ∈ cs, p.1 = false := by
  induction cs with
  | nil => simp [firstFailing]
  | cons p cs ih => obtain ⟨b, c⟩ := p; cases b <;> simp [firstFailing, ih]

/-- The fault a list of checks reports is one of the list's. -/
theorem firstFailing_mem {cs : List (Bool × FaultCode)} {c : FaultCode} (h : firstFailing cs = some c) :
    (true, c) ∈ cs := by
  induction cs with
  | nil => simp [firstFailing] at h
  | cons p cs ih =>
    obtain ⟨b, d⟩ := p
    cases b
    · exact List.mem_cons_of_mem _ (ih h)
    · simp only [firstFailing, Option.some.injEq] at h; simp [h]

/-- A command with checks ends in the first failing check's fault, or with its effect and DONE. -/
theorem runChecked_cases (op : BitVec 8) (cs : List (Bool × FaultCode)) (f : State → State) (s : State) :
    (∃ c, firstFailing cs = some c ∧ runChecked op cs f s = .next (s.withFault c op)) ∨
      (firstFailing cs = none ∧ runChecked op cs f s = .next (f s).withDone) := by
  unfold runChecked
  cases h : firstFailing cs with
  | none => exact .inr ⟨rfl, rfl⟩
  | some c => exact .inl ⟨c, rfl, rfl⟩

theorem runChecked_of_none {op : BitVec 8} {cs : List (Bool × FaultCode)} {f : State → State} {s : State}
    (h : firstFailing cs = none) : runChecked op cs f s = .next (f s).withDone := by simp [runChecked, h, retire]

theorem runChecked_of_some {op : BitVec 8} {cs : List (Bool × FaultCode)} {f : State → State} {s : State}
    {c : FaultCode} (h : firstFailing cs = some c) : runChecked op cs f s = .next (s.withFault c op) := by
  simp [runChecked, h, raiseFault]

/-! ## The effect of each command -/

/-- What each command writes before DONE, when no check fails. -/
def effectOf (i : Instr) (s : State) : State :=
  match i with
  | .nop => s
  | .gfAdd => s.setResult (gfAdd (opA s) (opB s))
  | .gfMul => s.setResult (gfMul (opA s) (opB s))
  | .gfInv => s.setResult ((gfInv (opA s)).getD 0)
  | .gfExp => s.setResult (gfExp (opA s).toNat)
  | .gfLog => s.setResult (BitVec.ofNat 8 ((gfLog (opA s)).getD 0))
  | .polyMul =>
    { s.setBuf .pr (polyMul (polyA s) (polyB s)) with
      res := { s.res with prLen := BitVec.ofNat 10 (opLa s + opLb s - 1) } }
  | .rsGenpoly => s.setBuf .gen (genPoly (opK s))
  | .rsEncode => (s.setBuf .gen (genPoly (opK s))).setBuf .ecb (ecBytes (dataBlock s) (opK s))
  | .syndrome =>
    { s.setBuf .syn (syndromes (codeword s) (opK s)) with
      status := s.status.setSynZero (allZero (syndromes (codeword s) (opK s))) }
  | .interleave =>
    { s.setBuf .obuf (interleave (opT s) (opD s) (opB' s) (symbolData s)) with
      res := { s.res with outLen := BitVec.ofNat 13 (opT s) } }

/-- When a command does not fault. -/
def passes (i : Instr) (s : State) : Prop :=
  match i with
  | .nop => True
  | .gfAdd => True
  | .gfMul => True
  | .gfInv => gfInv (opA s) ≠ none
  | .gfExp => True
  | .gfLog => gfLog (opA s) ≠ none
  | .polyMul => firstFailing (polyMulChecks s) = none
  | .rsGenpoly => firstFailing (genPolyChecks s) = none
  | .rsEncode => firstFailing (rsChecks s) = none
  | .syndrome => firstFailing (rsChecks s) = none
  | .interleave => firstFailing (interleaveChecks s) = none

/-- A command that passes its checks has its effect and sets DONE. -/
theorem exec_of_passes {i : Instr} {s : State} (h : passes i s) : exec i s = .next (effectOf i s).withDone := by
  cases i <;> simp only [passes] at h
  case gfInv =>
    simp only [exec, execGfInv]
    cases hr : gfInv (opA s) with
    | none => exact absurd hr h
    | some r => simp [effectOf, hr, retire]
  case gfLog =>
    simp only [exec, execGfLog]
    cases hr : gfLog (opA s) with
    | none => exact absurd hr h
    | some r => simp [effectOf, hr, retire]
  case polyMul => simp only [exec, execPolyMul, runChecked_of_none h, effectOf]
  case rsGenpoly => simp only [exec, execRsGenpoly, runChecked_of_none h, effectOf]
  case rsEncode => simp only [exec, execRsEncode, runChecked_of_none h, effectOf]
  case syndrome => simp only [exec, execSyndrome, runChecked_of_none h, effectOf]
  case interleave => simp only [exec, execInterleave, runChecked_of_none h, effectOf]
  all_goals rfl

/-- Any other command records one fault, with its own opcode byte; none records LENGTH_MISMATCH (R807). -/
theorem exec_of_not_passes {i : Instr} {s : State} (h : ¬ passes i s) :
    ∃ c, c ≠ .lengthMismatch ∧ exec i s = .next (s.withFault c i.opcode) := by
  have checked : ∀ (op : BitVec 8) (cs : List (Bool × FaultCode)) (f : State → State),
      (∀ p ∈ cs, p.2 ≠ .lengthMismatch) → firstFailing cs ≠ none →
      ∃ c, c ≠ .lengthMismatch ∧ runChecked op cs f s = .next (s.withFault c op) := by
    intro op cs f hcs hne
    cases hc : firstFailing cs with
    | none => exact absurd hc hne
    | some c => exact ⟨c, hcs _ (firstFailing_mem hc), runChecked_of_some hc⟩
  cases i <;> simp only [passes, not_true_eq_false] at h
  case gfInv =>
    refine ⟨.logOfZero, by decide, ?_⟩
    cases hr : gfInv (opA s) with
    | none => simp [exec, execGfInv, hr, raiseFault, Instr.opcode]
    | some r => exact absurd (by simp [hr]) h
  case gfLog =>
    refine ⟨.logOfZero, by decide, ?_⟩
    cases hr : gfLog (opA s) with
    | none => simp [exec, execGfLog, hr, raiseFault, Instr.opcode]
    | some r => exact absurd (by simp [hr]) h
  case polyMul => simpa only [exec, execPolyMul, Instr.opcode] using checked 0x10 _ _ (by simp [polyMulChecks]) h
  case rsGenpoly => simpa only [exec, execRsGenpoly, Instr.opcode] using checked 0x11 _ _ (by simp [genPolyChecks]) h
  case rsEncode => simpa only [exec, execRsEncode, Instr.opcode] using checked 0x20 _ _ (by simp [rsChecks]) h
  case syndrome => simpa only [exec, execSyndrome, Instr.opcode] using checked 0x21 _ _ (by simp [rsChecks]) h
  case interleave => simpa only [exec, execInterleave, Instr.opcode] using checked 0x30 _ _ (by simp [interleaveChecks]) h

/-- Everything `exec` can do. -/
theorem exec_cases (i : Instr) (s : State) :
    (passes i s ∧ exec i s = .next (effectOf i s).withDone) ∨
      ∃ c, c ≠ .lengthMismatch ∧ exec i s = .next (s.withFault c i.opcode) := by
  by_cases h : passes i s
  · exact .inl ⟨h, exec_of_passes h⟩
  · exact .inr (exec_of_not_passes h)

/-! ## What an effect keeps -/

section
variable (i : Instr) (s : State)

@[simp] theorem effectOf_eng : (effectOf i s).eng = s.eng := by cases i <;> rfl
@[simp] theorem effectOf_irqEn : (effectOf i s).irqEn = s.irqEn := by cases i <;> rfl
@[simp] theorem effectOf_ops : (effectOf i s).ops = s.ops := by cases i <;> rfl
@[simp] theorem effectOf_resp : (effectOf i s).resp = s.resp := by cases i <;> rfl
@[simp] theorem effectOf_age : (effectOf i s).age = s.age := by cases i <;> rfl
@[simp] theorem effectOf_host : (effectOf i s).host = s.host := by cases i <;> rfl
@[simp] theorem effectOf_turns : (effectOf i s).turns = s.turns := by cases i <;> rfl
@[simp] theorem effectOf_done : (effectOf i s).status.done = s.status.done := by cases i <;> rfl
@[simp] theorem effectOf_fault : (effectOf i s).status.fault = s.status.fault := by cases i <;> rfl
@[simp] theorem effectOf_faultCode : (effectOf i s).status.faultCode = s.status.faultCode := by cases i <;> rfl
@[simp] theorem effectOf_faultOp : (effectOf i s).status.faultOp = s.status.faultOp := by cases i <;> rfl

end

/-- The operand checks of a passing command, as plain inequalities. -/
theorem polyMul_passes (s : State) :
    passes .polyMul s ↔ (1 ≤ opLa s ∧ opLa s ≤ 256) ∧ 1 ≤ opLb s ∧ opLb s ≤ 256 := by
  simp [passes, firstFailing_eq_none, polyMulChecks, Config.polyMax]
  omega

theorem rsGenpoly_passes (s : State) : passes .rsGenpoly s ↔ 1 ≤ opK s := by
  simp [passes, firstFailing_eq_none, genPolyChecks]
  omega

theorem rs_passes (s : State) :
    firstFailing (rsChecks s) = none ↔
      1 ≤ opN s ∧ 1 ≤ opK s ∧ opN s + opK s ≤ 255 ∧ opS s + opN s ≤ 4096 := by
  simp [firstFailing_eq_none, rsChecks, Config.cwMax, Config.bufSize]
  omega

theorem interleave_passes (s : State) :
    passes .interleave s ↔
      1 ≤ opB' s ∧ opT s ≤ 4096 ∧ opB' s ≤ opD s ∧ opD s < opT s ∧
        opT s / opB' s + (if opT s % opB' s > 0 then 1 else 0) ≤ 255 ∧ (opT s - opD s) % opB' s = 0 := by
  simp [passes, firstFailing_eq_none, interleaveChecks, Config.cwMax, Config.bufSize]
  omega

end Sys2Proof.Machine
end

