-- ==== Sys2Proof/Laws/Decode.lean ====
section
/-! SUPPORT. The fields of a command word, and what the opcode map answers. -/

namespace Sys2Proof

/-- The opcode map answers a command for its own OPCODE only (R303). -/
theorem opcode_of_commandOf {op : Byte} {i : Instr} (h : commandOf op = some i) : op = i.opcode := by
  have all : ∀ op : Byte, (commandOf op).all (fun i => i.opcode == op) = true := by decide +kernel
  have := all op
  rw [h] at this
  exact (by simpa using this : i.opcode = op).symm

/-- A word is its two fields (R300). -/
theorem word_eq_fields (v : Word) : v = (zeroField v ++ opcodeField v : BitVec 32) := by
  apply BitVec.eq_of_toNat_eq
  have := v.isLt
  simp only [zeroField, opcodeField, BitVec.toNat_append, BitVec.extractLsb'_toNat, Nat.shiftRight_zero]
  rw [Nat.shiftLeft_eq, ← Nat.shiftLeft_eq, ← Nat.shiftLeft_add_eq_or_of_lt (by omega), Nat.shiftLeft_eq,
    Nat.shiftRight_eq_div_pow]
  omega

theorem opcodeField_encode (i : Instr) : opcodeField (encode i) = i.opcode := by cases i <;> decide

theorem zeroField_encode (i : Instr) : zeroField (encode i) = 0 := by cases i <;> decide

/-- Every command's word is legal (R303). -/
theorem commandWordWf_encode (i : Instr) : commandWordWf (encode i) = true := by cases i <;> decide

end Sys2Proof
end

