-- ==== Sys2Proof/Laws/Field.lean ====
section
/-! SUPPORT. The field tables against the copy of rule R404, and the facts the arithmetic rests on: EXP and LOG undo each
other, and doubling is linear. -/

namespace Sys2Proof.Machine

/-! ## The tables of rule R404 -/

/-- EXP[0..255] as rule R404 prints it. -/
def expCopy : List Nat :=
  [0x01, 0x02, 0x04, 0x08, 0x10, 0x20, 0x40, 0x80, 0x1D, 0x3A, 0x74, 0xE8, 0xCD, 0x87, 0x13, 0x26] ++ (
  [0x4C, 0x98, 0x2D, 0x5A, 0xB4, 0x75, 0xEA, 0xC9, 0x8F, 0x03, 0x06, 0x0C, 0x18, 0x30, 0x60, 0xC0] ++ (
  [0x9D, 0x27, 0x4E, 0x9C, 0x25, 0x4A, 0x94, 0x35, 0x6A, 0xD4, 0xB5, 0x77, 0xEE, 0xC1, 0x9F, 0x23] ++ (
  [0x46, 0x8C, 0x05, 0x0A, 0x14, 0x28, 0x50, 0xA0, 0x5D, 0xBA, 0x69, 0xD2, 0xB9, 0x6F, 0xDE, 0xA1] ++ (
  [0x5F, 0xBE, 0x61, 0xC2, 0x99, 0x2F, 0x5E, 0xBC, 0x65, 0xCA, 0x89, 0x0F, 0x1E, 0x3C, 0x78, 0xF0] ++ (
  [0xFD, 0xE7, 0xD3, 0xBB, 0x6B, 0xD6, 0xB1, 0x7F, 0xFE, 0xE1, 0xDF, 0xA3, 0x5B, 0xB6, 0x71, 0xE2] ++ (
  [0xD9, 0xAF, 0x43, 0x86, 0x11, 0x22, 0x44, 0x88, 0x0D, 0x1A, 0x34, 0x68, 0xD0, 0xBD, 0x67, 0xCE] ++ (
  [0x81, 0x1F, 0x3E, 0x7C, 0xF8, 0xED, 0xC7, 0x93, 0x3B, 0x76, 0xEC, 0xC5, 0x97, 0x33, 0x66, 0xCC] ++ (
  [0x85, 0x17, 0x2E, 0x5C, 0xB8, 0x6D, 0xDA, 0xA9, 0x4F, 0x9E, 0x21, 0x42, 0x84, 0x15, 0x2A, 0x54] ++ (
  [0xA8, 0x4D, 0x9A, 0x29, 0x52, 0xA4, 0x55, 0xAA, 0x49, 0x92, 0x39, 0x72, 0xE4, 0xD5, 0xB7, 0x73] ++ (
  [0xE6, 0xD1, 0xBF, 0x63, 0xC6, 0x91, 0x3F, 0x7E, 0xFC, 0xE5, 0xD7, 0xB3, 0x7B, 0xF6, 0xF1, 0xFF] ++ (
  [0xE3, 0xDB, 0xAB, 0x4B, 0x96, 0x31, 0x62, 0xC4, 0x95, 0x37, 0x6E, 0xDC, 0xA5, 0x57, 0xAE, 0x41] ++ (
  [0x82, 0x19, 0x32, 0x64, 0xC8, 0x8D, 0x07, 0x0E, 0x1C, 0x38, 0x70, 0xE0, 0xDD, 0xA7, 0x53, 0xA6] ++ (
  [0x51, 0xA2, 0x59, 0xB2, 0x79, 0xF2, 0xF9, 0xEF, 0xC3, 0x9B, 0x2B, 0x56, 0xAC, 0x45, 0x8A, 0x09] ++ (
  [0x12, 0x24, 0x48, 0x90, 0x3D, 0x7A, 0xF4, 0xF5, 0xF7, 0xF3, 0xFB, 0xEB, 0xCB, 0x8B, 0x0B, 0x16] ++
  [0x2C, 0x58, 0xB0, 0x7D, 0xFA, 0xE9, 0xCF, 0x83, 0x1B, 0x36, 0x6C, 0xD8, 0xAD, 0x47, 0x8E, 0x01]))))))))))))))

/-- LOG[1..255] as rule R404 prints it. -/
def logCopy : List Nat :=
  [0x00, 0x01, 0x19, 0x02, 0x32, 0x1A, 0xC6, 0x03, 0xDF, 0x33, 0xEE, 0x1B, 0x68, 0xC7, 0x4B] ++ (
  [0x04, 0x64, 0xE0, 0x0E, 0x34, 0x8D, 0xEF, 0x81, 0x1C, 0xC1, 0x69, 0xF8, 0xC8, 0x08, 0x4C, 0x71] ++ (
  [0x05, 0x8A, 0x65, 0x2F, 0xE1, 0x24, 0x0F, 0x21, 0x35, 0x93, 0x8E, 0xDA, 0xF0, 0x12, 0x82, 0x45] ++ (
  [0x1D, 0xB5, 0xC2, 0x7D, 0x6A, 0x27, 0xF9, 0xB9, 0xC9, 0x9A, 0x09, 0x78, 0x4D, 0xE4, 0x72, 0xA6] ++ (
  [0x06, 0xBF, 0x8B, 0x62, 0x66, 0xDD, 0x30, 0xFD, 0xE2, 0x98, 0x25, 0xB3, 0x10, 0x91, 0x22, 0x88] ++ (
  [0x36, 0xD0, 0x94, 0xCE, 0x8F, 0x96, 0xDB, 0xBD, 0xF1, 0xD2, 0x13, 0x5C, 0x83, 0x38, 0x46, 0x40] ++ (
  [0x1E, 0x42, 0xB6, 0xA3, 0xC3, 0x48, 0x7E, 0x6E, 0x6B, 0x3A, 0x28, 0x54, 0xFA, 0x85, 0xBA, 0x3D] ++ (
  [0xCA, 0x5E, 0x9B, 0x9F, 0x0A, 0x15, 0x79, 0x2B, 0x4E, 0xD4, 0xE5, 0xAC, 0x73, 0xF3, 0xA7, 0x57] ++ (
  [0x07, 0x70, 0xC0, 0xF7, 0x8C, 0x80, 0x63, 0x0D, 0x67, 0x4A, 0xDE, 0xED, 0x31, 0xC5, 0xFE, 0x18] ++ (
  [0xE3, 0xA5, 0x99, 0x77, 0x26, 0xB8, 0xB4, 0x7C, 0x11, 0x44, 0x92, 0xD9, 0x23, 0x20, 0x89, 0x2E] ++ (
  [0x37, 0x3F, 0xD1, 0x5B, 0x95, 0xBC, 0xCF, 0xCD, 0x90, 0x87, 0x97, 0xB2, 0xDC, 0xFC, 0xBE, 0x61] ++ (
  [0xF2, 0x56, 0xD3, 0xAB, 0x14, 0x2A, 0x5D, 0x9E, 0x84, 0x3C, 0x39, 0x53, 0x47, 0x6D, 0x41, 0xA2] ++ (
  [0x1F, 0x2D, 0x43, 0xD8, 0xB7, 0x7B, 0xA4, 0x76, 0xC4, 0x17, 0x49, 0xEC, 0x7F, 0x0C, 0x6F, 0xF6] ++ (
  [0x6C, 0xA1, 0x3B, 0x52, 0x29, 0x9D, 0x55, 0xAA, 0xFB, 0x60, 0x86, 0xB1, 0xBB, 0xCC, 0x3E, 0x5A] ++ (
  [0xCB, 0x59, 0x5F, 0xB0, 0x9C, 0xA9, 0xA0, 0x51, 0x0B, 0xF5, 0x16, 0xEB, 0x7A, 0x75, 0x2C, 0xD7] ++
  [0x4F, 0xAE, 0xD5, 0xE9, 0xE6, 0xE7, 0xAD, 0xE8, 0x74, 0xD6, 0xF4, 0xEA, 0xA8, 0x50, 0x58, 0xAF]))))))))))))))

/-- The table rule R401 builds is the copy of rule R404. -/
theorem expTable_eq_copy : expTable = expCopy.map (BitVec.ofNat 8) := by decide +kernel

theorem expFrom_length (n : Nat) (x : Byte) : (expFrom n x).length = n := by
  induction n generalizing x with
  | zero => rfl
  | succ n ih => simp [expFrom, ih]

theorem expTable_length : expTable.length = 256 := expFrom_length 256 1

theorem getElem?_expTable {i : Nat} (h : i < 256) : expTable[i]? = some (gfExp i) := by
  have hi : i < expTable.length := by rw [expTable_length]; exact h
  simp [gfExp, List.getD_eq_getElem?_getD, hi]

/-- The first 255 entries of EXP, the powers α^0 … α^254. -/
abbrev powers : List Byte := expTable.take 255

theorem powers_length : powers.length = 255 := by simp [powers, expTable_length]

theorem getElem?_powers {i : Nat} (h : i < 255) : powers[i]? = some (gfExp i) := by
  rw [List.getElem?_take, if_pos h, getElem?_expTable (by omega)]

/-- Bit a of the union of the powers 2^e of a list says whether a is in the list. -/
theorem testBit_mask (xs : List Byte) (a : Nat) :
    (xs.foldr (fun (e : Byte) acc => 2 ^ e.toNat ||| acc) 0).testBit a = true ↔ ∃ e ∈ xs, e.toNat = a := by
  induction xs with
  | nil => simp
  | cons x xs ih => simp [List.foldr_cons, Nat.testBit_or, Nat.testBit_two_pow, ih]

/-- Every non-zero element is a power of α (R402): the powers, as a set of bits, fill 1..255. -/
theorem mem_powers {a : Byte} (h : a ≠ 0) : a ∈ powers := by
  have mask : powers.foldr (fun (e : Byte) acc => 2 ^ e.toNat ||| acc) 0 = 2 ^ 256 - 1 - 2 ^ 0 := by
    rw [powers, expTable_eq_copy]
    decide +kernel
  have bit : (2 ^ 256 - 1 - 2 ^ 0).testBit a.toNat = true := by
    have hne : a.toNat ≠ 0 := fun h0 => h (BitVec.eq_of_toNat_eq (by simpa using h0))
    rw [show (2 ^ 256 - 1 - 2 ^ 0 : Nat) = (2 ^ 255 - 1) * 2 by norm_num,
      show a.toNat = (a.toNat - 1) + 1 by omega, Nat.testBit_succ, Nat.mul_div_cancel _ (by norm_num),
      Nat.testBit_two_pow_sub_one]
    have := a.isLt
    simp only [decide_eq_true_eq]
    omega
  rw [← mask, testBit_mask] at bit
  obtain ⟨e, he, hea⟩ := bit
  rwa [← BitVec.eq_of_toNat_eq hea]

/-- The powers are distinct (R402): 255 entries that hold 255 values. -/
theorem powers_nodup : powers.Nodup := by
  apply List.Nodup.of_map (fun e : Byte => e.toNat)
  rw [← Multiset.coe_nodup, ← Multiset.toFinset_card_eq_card_iff_nodup]
  refine le_antisymm (Multiset.toFinset_card_le _) ?_
  have sub : Finset.Icc 1 255 ⊆ (powers.map fun e : Byte => e.toNat : Multiset Nat).toFinset := fun a ha => by
    simp only [Finset.mem_Icc] at ha
    have hne : BitVec.ofNat 8 a ≠ 0 := fun h => by
      have := congrArg BitVec.toNat h
      simp at this
      omega
    simp only [Multiset.mem_toFinset, Multiset.mem_coe, List.mem_map]
    exact ⟨_, mem_powers hne, by simp; omega⟩
  have := Finset.card_le_card sub
  rw [Nat.card_Icc] at this
  simpa only [Multiset.coe_card, List.length_map, powers_length] using this

/-! ## EXP and LOG -/

/-- The search finds the first entry that holds the value. -/
theorem indexFrom_some {xs : List Byte} {n : Nat} {a : Byte} {i : Nat} (h : indexFrom xs n a = some i) :
    n ≤ i ∧ xs[i - n]? = some a := by
  induction xs generalizing n with
  | nil => simp [indexFrom] at h
  | cons x xs ih =>
    simp only [indexFrom] at h
    split at h
    · rename_i hx
      obtain rfl : n = i := by simpa using h
      simp [hx]
    · obtain ⟨h1, h2⟩ := ih h
      refine ⟨by omega, ?_⟩
      rw [show i - n = (i - (n + 1)) + 1 by omega]
      simpa using h2

theorem exists_indexFrom {xs : List Byte} {a : Byte} (h : a ∈ xs) (n : Nat) : ∃ i, indexFrom xs n a = some i := by
  induction xs generalizing n with
  | nil => simp at h
  | cons x xs ih =>
    simp only [indexFrom]
    split
    · simp
    · rename_i hx
      exact ih (by simpa [Ne.symm hx] using h) (n + 1)

theorem gfLog_eq {a : Byte} (h : a ≠ 0) : gfLog a = indexFrom powers 0 a := if_neg h

/-- LOG[a] = i says i ≤ 254 and EXP[i] = a (R403). -/
theorem gfExp_of_gfLog {a : Byte} {i : Nat} (h : gfLog a = some i) : i < 255 ∧ gfExp i = a := by
  have ha : a ≠ 0 := by
    rintro rfl
    simp [gfLog] at h
  rw [gfLog_eq ha] at h
  obtain ⟨-, h2⟩ := indexFrom_some h
  simp only [Nat.sub_zero] at h2
  have hi : i < 255 := by
    have := (List.getElem?_eq_some_iff.mp h2).1
    have hl := powers_length
    simp only [powers] at hl
    simpa [Config.size, hl] using this
  refine ⟨hi, ?_⟩
  have h3 : powers[i]? = some a := h2
  rw [getElem?_powers hi] at h3
  simpa using h3

/-- Every non-zero element has a logarithm. -/
theorem exists_gfLog {a : Byte} (h : a ≠ 0) : ∃ i, gfLog a = some i := by
  rw [gfLog_eq h]
  exact exists_indexFrom (mem_powers h) 0

/-- Powers below 255 are distinct. -/
theorem gfExp_injOn {i j : Nat} (hi : i < 255) (hj : j < 255) (h : gfExp i = gfExp j) : i = j := by
  have e : powers[i]? = powers[j]? := by rw [getElem?_powers hi, getElem?_powers hj, h]
  exact (List.getElem?_inj (by rw [powers_length]; exact hi) powers_nodup).mp e

theorem gfExp_zero : gfExp 0 = 1 := rfl

theorem gfExp_255 : gfExp 255 = 1 := by decide +kernel

/-- No power of α is 0. -/
theorem gfExp_ne_zero {i : Nat} (h : i < 255) : gfExp i ≠ 0 := by
  have no : ∀ e ∈ powers, e ≠ 0 := by
    have : powers.all (· != 0) = true := by rw [powers, expTable_eq_copy]; decide +kernel
    simpa using this
  exact no _ (List.mem_of_getElem? (getElem?_powers h))

/-- LOG undoes EXP on 0..254. -/
theorem gfLog_gfExp {i : Nat} (h : i < 255) : gfLog (gfExp i) = some i := by
  obtain ⟨j, hj⟩ := exists_gfLog (gfExp_ne_zero h)
  obtain ⟨hj1, hj2⟩ := gfExp_of_gfLog hj
  rw [hj, gfExp_injOn hj1 h hj2]

/-- 0 has no logarithm. -/
theorem gfLog_zero : gfLog 0 = none := rfl

/-- The logarithm table is the copy of rule R404. -/
theorem gfLog_eq_copy {a : Nat} (h : a < 255) : gfLog (BitVec.ofNat 8 (a + 1)) = some (logCopy.getD a 0) := by
  have key : (logCopy.map fun i => if i < 255 then expCopy.getD i 0 else 0) = List.range' 1 255 := by decide +kernel
  have e := congrArg (fun l => l.getD a 0) key
  have len : logCopy.length = 255 := by decide +kernel
  have ha : a < logCopy.length := by omega
  simp only [List.getD_eq_getElem?_getD, List.getElem?_map, List.getElem?_eq_getElem ha, Option.map_some,
    Option.getD_some, List.getElem?_range' h] at e
  split at e
  · rename_i hi
    rw [List.getD_eq_getElem?_getD, List.getElem?_eq_getElem ha, Option.getD_some, ← gfLog_gfExp hi]
    congr 1
    rw [gfExp, expTable_eq_copy, List.getD_eq_getElem?_getD, List.getElem?_map]
    cases hx : expCopy[logCopy[a]]? with
    | none => simp [hx] at e; omega
    | some x => simp [hx] at e ⊢; rw [e]; congr 1; omega
  · omega

/-- Each entry is the double of the one before (R401). -/
theorem gfExp_succ {i : Nat} (h : i < 255) : gfExp (i + 1) = gfDouble (gfExp i) := by
  have step : ∀ (n : Nat) (x : Byte) (i : Nat), i + 1 < n → (expFrom n x)[i + 1]? = (expFrom n x)[i]?.map gfDouble := by
    intro n
    induction n with
    | zero => intro x i hi; omega
    | succ n ih =>
      intro x i hi
      cases i with
      | zero =>
        cases n with
        | zero => omega
        | succ n => simp [expFrom]
      | succ i => simpa [expFrom] using ih (gfDouble x) i (by omega)
  have := step 256 1 i (by omega)
  rw [show expFrom 256 1 = expTable from rfl, getElem?_expTable (by omega), getElem?_expTable (by omega)] at this
  simpa using this

/-- The product of two powers of α (R406). -/
theorem gfMul_gfExp {i j : Nat} (hi : i < 255) (hj : j < 255) :
    gfMul (gfExp i) (gfExp j) = gfExp ((i + j) % 255) := by
  have h : ¬ (gfExp i = 0 ∨ gfExp j = 0) := by simpa using ⟨gfExp_ne_zero hi, gfExp_ne_zero hj⟩
  rw [gfMul, if_neg h, gfLog_gfExp hi, gfLog_gfExp hj]
  rfl

theorem gfMul_zero_left (b : Byte) : gfMul 0 b = 0 := by simp [gfMul]

theorem gfMul_zero_right (a : Byte) : gfMul a 0 = 0 := by simp [gfMul]

/-- Doubling is a shift, and a XOR with `0x1D` when the top bit falls out. -/
theorem gfDouble_eq (x : Byte) : gfDouble x = x <<< 1 ^^^ (if x.getLsbD 7 then 0x1D#8 else 0) := by
  revert x
  decide +kernel

/-- Doubling is linear, so multiplication by every power of α is. -/
theorem gfDouble_add (x y : Byte) : gfDouble (gfAdd x y) = gfAdd (gfDouble x) (gfDouble y) := by
  have cancel : ∀ a b c : Byte, (a ^^^ c) ^^^ (b ^^^ c) = a ^^^ b := by
    intro a b c
    rw [BitVec.xor_comm b c, ← BitVec.xor_assoc, BitVec.xor_assoc a c c, BitVec.xor_self, BitVec.xor_zero]
  simp only [gfDouble_eq, gfAdd, BitVec.shiftLeft_xor_distrib, BitVec.getLsbD_xor]
  cases x.getLsbD 7 <;> cases y.getLsbD 7 <;> simp [cancel] <;> ac_rfl

end Sys2Proof.Machine
end

