-- ==== Sys2Proof/Laws/Lengths.lean ====
section
/-! SUPPORT. How long every computed array is, and what its entries are. -/

namespace Sys2Proof.Machine

@[simp] theorem polyMul_length (A B : List Byte) : (polyMul A B).length = A.length + B.length - 1 := by
  simp [polyMul]

theorem polyMul_getD (A B : List Byte) {i : Nat} (h : i < A.length + B.length - 1) :
    (polyMul A B).getD i 0 = polyMulCoeff A B i := by
  simp [polyMul, List.getD_eq_getElem?_getD, h]

/-- g_(k+1) is g_k times one more factor (R502). -/
theorem genPoly_succ (k : Nat) : genPoly (k + 1) = polyMul (genPoly k) [1, gfExp k] := by
  simp [genPoly, List.range_succ, Config.genBase]

@[simp] theorem genPoly_length (k : Nat) : (genPoly k).length = k + 1 := by
  induction k with
  | zero => rfl
  | succ k ih => rw [genPoly_succ, polyMul_length, ih]; simp

theorem ecStep_length {g r : List Byte} (d : Byte) (hr : r ≠ []) (h : g.length = r.length + 1) :
    (ecStep g r d).length = r.length := by
  have : 0 < r.length := List.length_pos_iff.mpr hr
  simp [ecStep, h]
  omega

theorem ecFold_length {g : List Byte} (d : List Byte) :
    ∀ r : List Byte, r ≠ [] → g.length = r.length + 1 → (d.foldl (ecStep g) r).length = r.length := by
  induction d with
  | nil => simp
  | cons x d ih =>
    intro r hr h
    have hl := ecStep_length x hr h
    have hr' : ecStep g r x ≠ [] := by
      rw [← List.length_pos_iff, hl]
      exact List.length_pos_iff.mpr hr
    rw [List.foldl_cons, ih _ hr' (by rw [hl, h]), hl]

/-- There are k EC bytes (R601). -/
theorem ecBytes_length (d : List Byte) {k : Nat} (h : 1 ≤ k) : (ecBytes d k).length = k := by
  rw [ecBytes, ecFold_length]
  · simp
  · rw [← List.length_pos_iff, List.length_replicate]; omega
  · simp

theorem synStep_length {acc : List Byte} (c : Byte) (h : acc.length ≤ 256) :
    (synStep acc c).length = acc.length := by
  simp [synStep, expTable_length, h]

theorem synFold_length (c : List Byte) :
    ∀ acc : List Byte, acc.length ≤ 256 → (c.foldl synStep acc).length = acc.length := by
  induction c with
  | nil => simp
  | cons x c ih =>
    intro acc h
    have hl := synStep_length x h
    rw [List.foldl_cons, ih _ (by rw [hl]; exact h), hl]

/-- There are k syndromes (R610). -/
theorem syndromes_length (c : List Byte) {k : Nat} (h : k ≤ 256) : (syndromes c k).length = k := by
  rw [syndromes, synFold_length _ _ (by simpa using h)]
  simp

@[simp] theorem dataBlock_length (s : State) : (dataBlock s).length = opN s := by simp [dataBlock]

@[simp] theorem codeword_length (s : State) : (codeword s).length = opN s + opK s := by simp [codeword]

@[simp] theorem symbolData_length (s : State) : (symbolData s).length = opD s := by simp [symbolData]

@[simp] theorem polyA_length (s : State) : (polyA s).length = opLa s := by simp [polyA]

@[simp] theorem polyB_length (s : State) : (polyB s).length = opLb s := by simp [polyB]

end Sys2Proof.Machine
end

