-- ==== Sys2Proof/Laws/Interleave.lean ====
section
/-! SUPPORT. The block split and the columns, read entry by entry. -/

namespace Sys2Proof.Machine

/-- n_b with g1 written out (R700, R701). -/
theorem blockSize_eq (T D B b : Nat) : blockSize T D B b = if b < B - T % B then D / B else D / B + 1 := rfl

/-- Run `b` of a split: it starts after the runs before it (R701). -/
theorem splitRuns_getElem? (ns : List Nat) (d : List Byte) (b : Nat) :
    (splitRuns ns d)[b]? = ns[b]?.map fun n => (d.drop (ns.take b).sum).take n := by
  induction ns generalizing d b with
  | nil => simp [splitRuns]
  | cons n ns ih =>
    cases b with
    | zero => simp [splitRuns]
    | succ b => simp [splitRuns, ih, List.drop_drop]

theorem splitRuns_length (ns : List Nat) (d : List Byte) : (splitRuns ns d).length = ns.length := by
  induction ns generalizing d with
  | nil => rfl
  | cons n ns ih => simp [splitRuns, ih]

/-- o_b, the data bytes before block `b` (R701). -/
theorem blockSizes_take_sum (T D B b : Nat) (hb : b ≤ B) :
    ((blockSizes T D B).take b).sum = b * (D / B) + (b - (B - T % B)) := by
  have : (blockSizes T D B).take b = (List.range b).map (blockSize T D B) := by
    simp [blockSizes, ← List.map_take, List.take_range, Nat.min_eq_left hb]
  rw [this]
  clear this hb
  induction b with
  | zero => simp
  | succ b ih =>
    rw [List.range_succ, List.map_append, List.sum_append, ih]
    simp only [List.map_singleton, List.sum_singleton, blockSize_eq, Nat.succ_mul]
    split <;> omega

/-- Rows of one length, one after the other: how many entries there are. -/
theorem flatMap_range_length {B : Nat} (f : Nat → List Byte) (n : Nat) (h : ∀ i, i < n → (f i).length = B) :
    ((List.range n).flatMap f).length = n * B := by
  induction n with
  | zero => simp
  | succ n ih =>
    rw [List.range_succ, List.flatMap_append, List.length_append, ih fun i hi => h i (by omega)]
    simp [h n (by omega), Nat.succ_mul]

/-- Rows of one length, one after the other: entry `b` of row `i` is entry `i · B + b`. -/
theorem flatMap_range_getD {B : Nat} (f : Nat → List Byte) (n : Nat) (h : ∀ i, i < n → (f i).length = B)
    {i b : Nat} (hi : i < n) (hb : b < B) : ((List.range n).flatMap f).getD (i * B + b) 0 = (f i).getD b 0 := by
  induction n with
  | zero => omega
  | succ n ih =>
    have hl := flatMap_range_length f n fun i hi => h i (by omega)
    rw [List.range_succ, List.flatMap_append]
    simp only [List.flatMap_singleton, List.getD_eq_getElem?_getD]
    by_cases hin : i < n
    · have : i * B + b < n * B := by
        have : (i + 1) * B ≤ n * B := Nat.mul_le_mul_right B (by omega)
        rw [Nat.succ_mul] at this
        omega
      rw [List.getElem?_append_left (by omega)]
      have := ih (fun i hi => h i (by omega)) hin
      simpa [List.getD_eq_getElem?_getD] using this
    · have : i = n := by omega
      subst this
      rw [List.getElem?_append_right (by omega), hl]
      simp

end Sys2Proof.Machine
end

