-- ==== Sys2Proof/Laws/PerInstr.lean ====
section
/-! SUPPORT. What holds of every command as syntax, one lemma per constructor. -/

namespace Sys2Proof.Laws.OpcodeField

/-- The word of a command has ZERO = 0 and the command's OPCODE, it is a legal word, and the command is well formed
(R300, R303). -/
def Statement (i : Instr) : Prop :=
  zeroField (encode i) = 0 ∧ opcodeField (encode i) = i.opcode ∧ commandWordWf (encode i) = true ∧ i.wf = true

theorem nop : Statement .nop := by unfold Statement; decide

theorem gfAdd : Statement .gfAdd := by unfold Statement; decide

theorem gfMul : Statement .gfMul := by unfold Statement; decide

theorem gfInv : Statement .gfInv := by unfold Statement; decide

theorem gfExp : Statement .gfExp := by unfold Statement; decide

theorem gfLog : Statement .gfLog := by unfold Statement; decide

theorem polyMul : Statement .polyMul := by unfold Statement; decide

theorem rsGenpoly : Statement .rsGenpoly := by unfold Statement; decide

theorem rsEncode : Statement .rsEncode := by unfold Statement; decide

theorem syndrome : Statement .syndrome := by unfold Statement; decide

theorem interleave : Statement .interleave := by unfold Statement; decide

end Sys2Proof.Laws.OpcodeField
end

