-- ==== Sys2Proof/Laws/Polynomial.lean ====
section
/-! SUPPORT. ⊕-sums, the coefficients of a product, and one step of the shift register and of the accumulators, read
entry by entry. -/

namespace Sys2Proof.Machine

/-! ## ⊕-sums (R10) -/

theorem gfSum_nil : gfSum [] = 0 := rfl

theorem gfSum_cons (x : Byte) (xs : List Byte) : gfSum (x :: xs) = gfAdd x (gfSum xs) := rfl

theorem gfSum_append (xs ys : List Byte) : gfSum (xs ++ ys) = gfAdd (gfSum xs) (gfSum ys) := by
  induction xs with
  | nil => simp [gfSum_nil, gfAdd]
  | cons x xs ih => rw [List.cons_append, gfSum_cons, ih, gfSum_cons]; exact (BitVec.xor_assoc _ _ _).symm

theorem gfSum_zero (xs : List Byte) (h : ∀ x ∈ xs, x = 0) : gfSum xs = 0 := by
  induction xs with
  | nil => rfl
  | cons x xs ih => rw [gfSum_cons, h x (by simp), ih fun y hy => h y (by simp [hy])]; rfl

/-! ## Products (R501) -/

/-- A coefficient as a sum over every index of the first factor: the terms outside rule R501's bounds are 0. -/
theorem polyMulCoeff_eq_full (A B : List Byte) (i : Nat) (hA : 1 ≤ A.length) (hB : 1 ≤ B.length) :
    polyMulCoeff A B i = gfSum ((List.range A.length).map fun j =>
      if j ≤ i ∧ i - j < B.length then gfMul (A.getD j 0) (B.getD (i - j) 0) else 0) := by
  obtain ⟨lo, hlo⟩ : ∃ lo, lo = min (i + 1 - B.length) A.length := ⟨_, rfl⟩
  obtain ⟨hi, hhi⟩ : ∃ hi, hi = min i (A.length - 1) + 1 := ⟨_, rfl⟩
  have parts : List.range A.length =
      List.range' 0 lo ++ (List.range' lo (hi - lo) ++ List.range' hi (A.length - hi)) := by
    have h2 := List.range'_append_1 (s := lo) (m := hi - lo) (n := A.length - hi)
    have h1 := List.range'_append_1 (s := 0) (m := lo) (n := hi - lo + (A.length - hi))
    rw [show lo + (hi - lo) = hi by omega] at h2
    rw [Nat.zero_add] at h1
    rw [List.range_eq_range', h2, h1]
    congr 1
    omega
  have outside : ∀ (js : List Nat) (f : Nat → Byte), (∀ j ∈ js, ¬ (j ≤ i ∧ i - j < B.length)) →
      gfSum (js.map fun j => if j ≤ i ∧ i - j < B.length then f j else 0) = 0 := by
    intro js f h
    apply gfSum_zero
    intro x hx
    obtain ⟨j, hj, rfl⟩ := List.mem_map.mp hx
    rw [if_neg (h j hj)]
  have pad : ∀ x : Byte, gfAdd 0 (gfAdd x 0) = x := fun x => by simp [gfAdd]
  rw [parts, List.map_append, List.map_append, gfSum_append, gfSum_append, outside (List.range' 0 lo),
    outside (List.range' hi _), pad]
  · unfold polyMulCoeff indices
    by_cases hh : i + 1 - B.length ≤ A.length
    · rw [show i + 1 - B.length = lo by omega, show min i (A.length - 1) + 1 - lo = hi - lo by omega]
      congr 1
      apply List.map_congr_left
      intro j hj
      rw [List.mem_range'_1] at hj
      rw [if_pos (by omega)]
    · rw [show min i (A.length - 1) + 1 - (i + 1 - B.length) = 0 by omega, show hi - lo = 0 by omega]
      rfl
  · intro j hj
    rw [List.mem_range'_1] at hj
    omega
  · intro j hj
    rw [List.mem_range'_1] at hj
    omega

/-! ## The shift register and the accumulators -/

/-- One step of the shift register, entry by entry (R602). -/
theorem ecStep_getD {g r : List Byte} {x : Byte} {k : Nat} (hr : r.length = k) (hk : 1 ≤ k) (hg : g.length = k + 1)
    {j : Nat} (hj : j < k) :
    (ecStep g r x).getD j 0 =
      gfAdd (if j + 1 < k then r.getD (j + 1) 0 else 0) (gfMul (gfAdd x (r.getD 0 0)) (g.getD (j + 1) 0)) := by
  cases r with
  | nil => simp at hr; omega
  | cons r0 r =>
    cases g with
    | nil => simp at hg
    | cons g0 g =>
      simp only [List.length_cons] at hr hg
      simp only [ecStep, List.tail_cons, List.headD_cons, List.getD_eq_getElem?_getD, List.getElem?_zipWith,
        List.getElem?_cons_succ, List.getElem?_cons_zero]
      have h1 : j < g.length := by omega
      by_cases h : j + 1 < k
      · have : j < r.length := by omega
        simp [h1, h, this, List.getElem?_append]
      · have : j = r.length := by omega
        subst this
        simp [h1, h]

/-- Accumulator j runs on its own (R611). -/
theorem synFold_getD (j : Nat) : ∀ c acc : List Byte, j < acc.length → acc.length ≤ 256 →
    (c.foldl synStep acc).getD j 0 = c.foldl (fun a x => gfAdd (gfMul a (gfExp j)) x) (acc.getD j 0) := by
  intro c
  induction c with
  | nil => intro acc _ _; rfl
  | cons x c ih =>
    intro acc h h'
    have hl := synStep_length x h'
    rw [List.foldl_cons, List.foldl_cons, ih _ (by omega) (by omega)]
    congr 1
    simp only [synStep, List.getD_eq_getElem?_getD, List.getElem?_zipWith, List.getElem?_take, if_pos h]
    rw [getElem?_expTable (by omega)]
    simp [h]

end Sys2Proof.Machine
end

