-- ==== Sys2Proof/Laws/Steps.lean ====
section
/-! SUPPORT. Runs, one step at a time. -/

namespace Sys2Proof.Machine

theorem stepsFrom_zero (s : State) : stepsFrom 0 s = .next s := rfl

theorem stepsFrom_succ (n : Nat) (s : State) :
    stepsFrom (n + 1) s =
      match step s with
      | .next t => stepsFrom n t
      | .fault r => .fault r
      | .refused r => .refused r := by
  simp only [stepsFrom, Host.Core.run, core]
  split <;> simp_all

/-- What every step keeps, every run keeps. -/
theorem stepsFrom_keeps {P : State → Prop} (h : ∀ s t, P s → step s = .next t → P t) {n : Nat} {s t : State}
    (hs : P s) (ht : stepsFrom n s = .next t) : P t := by
  induction n generalizing s with
  | zero => cases ht; exact hs
  | succ n ih =>
    rw [stepsFrom_succ] at ht
    split at ht
    · exact ih (h _ _ hs ‹_›) ht
    · cases ht
    · cases ht

end Sys2Proof.Machine
end

