-- ==== Sys2Proof/Tests/Slice0.lean ====
section
/-! SUPPORT. Tests of the model against the vectors V<n> of spec/95_test_vectors.md and the examples of the rules, and a
witness for the hypotheses of every statement that has some.  No expected value is the model's own. -/

open Sys2Proof Sys2Proof.Machine Sys2Proof.Ref

namespace Sys2Proof.Tests

/-! ## Helpers -/

/-- What is seen of the next state, if there is one. -/
def seen {α : Type} (o : Host.Outcome State Fault Refusal) (f : State → α) : Option α :=
  match o with
  | .next t => some (f t)
  | .fault _ => none
  | .refused _ => none

/-- After reset, with ARG_A and ARG_B. -/
def withArgs (a b : Byte) : State := { State.reset with ops := { OperandRegs.reset with argA := a, argB := b } }

/-- After reset, with s, n, k and DBUF[s..] and ECB filled. -/
def withBlock (s : BitVec 12) (n k : BitVec 8) (data ec : List Byte) : State :=
  { State.reset with
    ops := { OperandRegs.reset with srcOff := s, nLen := n, kLen := k },
    mem := Memory.cells 0x2400 ec ++ Memory.cells (0x4000 + 4 * s.toNat) data }

/-- After reset, with la, lb, PA and PB. -/
def withPolys (la lb : BitVec 9) (A B : List Byte) : State :=
  { State.reset with
    ops := { OperandRegs.reset with lenA := la, lenB := lb },
    mem := Memory.cells 0x1000 A ++ Memory.cells 0x1400 B }

/-- After reset, with T, D, B and DBUF. -/
def withSymbol (T D : BitVec 13) (B : BitVec 8) (data : List Byte) : State :=
  { State.reset with
    ops := { OperandRegs.reset with total := T, dataTotal := D, blocks := B }, mem := Memory.cells 0x4000 data }

/-- After reset, with the host's next operations. -/
def withHost (ops : List HostOp) : State := { State.reset with host := ops }

/-- After reset, with a running command, the next turn, and the host's next operations. -/
def running (v : Word) (t : Turn) (ops : List HostOp) : State :=
  { State.reset with eng := .run v, turns := [t], host := ops }

/-- RESULT and STATUS. -/
def scalarSeen (t : State) : Byte × Word := (t.res.result, statusWord t)

/-- The first `n` entries of a buffer, the entry after them, and STATUS. -/
def bufSeen (b : Buf) (n : Nat) (t : State) : List Byte × Byte × Word := (t.entries b 0 n, t.entry b n, statusWord t)

/-! ## Well-formedness refuses -/

/-- PR[512], GEN[256] and DBUF[4096] do not exist (R141); 0x06 and 0x12 are no opcodes and bits [31:8] must be 0
(R304); their neighbours pass. -/
theorem test_wf_refuses :
    Stmt.wf (.wrBuf .pr 512 0) = false ∧ Stmt.wf (.rdBuf .gen 256) = false ∧ Stmt.wf (.wrBuf .dbuf 4096 0) = false ∧
      commandWordWf 0x06 = false ∧ commandWordWf 0x12 = false ∧ commandWordWf 0x102 = false := by decide

theorem test_wf_accepts :
    Stmt.wf (.wrBuf .pr 511 0) = true ∧ Stmt.wf (.rdBuf .obuf 4095) = true ∧ Stmt.wf (.cmd .nop) = true ∧
      commandWordWf 0x30 = true := by decide

/-! ## Decoding: the words of rule R303, bit by bit -/

theorem test_decode_scalar :
    decode 0b00000000000000000000000000000000 = .command .nop ∧
      decode 0b00000000000000000000000000000001 = .command .gfAdd ∧
      decode 0b00000000000000000000000000000010 = .command .gfMul ∧
      decode 0b00000000000000000000000000000011 = .command .gfInv ∧
      decode 0b00000000000000000000000000000100 = .command .gfExp ∧
      decode 0b00000000000000000000000000000101 = .command .gfLog := by decide

theorem test_decode_families :
    decode 0b00000000000000000000000000010000 = .command .polyMul ∧
      decode 0b00000000000000000000000000010001 = .command .rsGenpoly ∧
      decode 0b00000000000000000000000000100000 = .command .rsEncode ∧
      decode 0b00000000000000000000000000100001 = .command .syndrome ∧
      decode 0b00000000000000000000000000110000 = .command .interleave := by decide

/-- The edges of the reserved ranges of rule R304, and a legal OPCODE under a non-zero ZERO field. -/
theorem test_decode_illegal :
    [0x06, 0x0F, 0x12, 0x1F, 0x22, 0x2F, 0x31, 0xFF].map decode = List.replicate 8 (.illegal .reservedOpcode) ∧
      decode 0x00000102 = .illegal .zeroFieldNotZero ∧ decode 0x80000000 = .illegal .zeroFieldNotZero := by
  decide +kernel

theorem test_decode_table_word :
    decodeTableWord 32 0x21 = some .syndrome ∧ decodeTableWord 32 0x06 = none := by decide +kernel

/-! ## Scalar commands (spec/95_test_vectors.md 3.1) -/

/-- V1, through a step. -/
theorem test_nop : seen (step (State.reset.withFetchWord 32 0x00)) scalarSeen = some (0, 0x00000002) := by
  decide +kernel

/-- V2. -/
theorem test_gfAdd : seen (exec .gfAdd (withArgs 0x53 0xCA)) scalarSeen = some (0x99, 0x00000002) := by
  decide +kernel

/-- V4 and V7: EXP and LOG, and one reduction by PRIM. -/
theorem test_gfMul :
    seen (exec .gfMul (withArgs 0x53 0xCA)) scalarSeen = some (0x8F, 0x00000002) ∧
      seen (exec .gfMul (withArgs 0x02 0x80)) scalarSeen = some (0x1D, 0x00000002) := by decide +kernel

/-- V5: a zero operand raises nothing. -/
theorem test_gfMul_zero : seen (exec .gfMul (withArgs 0x00 0x37)) scalarSeen = some (0, 0x00000002) := by
  decide +kernel

/-- V13, and inv(1) = EXP[255] of V16. -/
theorem test_gfInv :
    seen (exec .gfInv (withArgs 0x53 0)) scalarSeen = some (0x8C, 0x00000002) ∧
      seen (exec .gfInv (withArgs 0x01 0)) scalarSeen = some (0x01, 0x00000002) := by decide +kernel

/-- V15. -/
theorem test_gfInv_zero : seen (exec .gfInv (withArgs 0x00 0)) scalarSeen = some (0, 0x00030204) := by decide +kernel

/-- V17 at 0x19 and 0xFF. -/
theorem test_gfExp :
    seen (exec .gfExp (withArgs 0x19 0)) scalarSeen = some (0x03, 0x00000002) ∧
      seen (exec .gfExp (withArgs 0xFF 0)) scalarSeen = some (0x01, 0x00000002) := by decide +kernel

/-- V18 at 0x8E and 0xCA. -/
theorem test_gfLog :
    seen (exec .gfLog (withArgs 0x8E 0)) scalarSeen = some (0xFE, 0x00000002) ∧
      seen (exec .gfLog (withArgs 0xCA 0)) scalarSeen = some (0x49, 0x00000002) := by decide +kernel

/-- V14. -/
theorem test_gfLog_zero : seen (exec .gfLog (withArgs 0x00 0)) scalarSeen = some (0, 0x00050204) := by decide +kernel

/-! ## Polynomials (3.2) -/

/-- V23. -/
theorem test_polyMul :
    seen (exec .polyMul (withPolys 3 2 [0x53, 0x01, 0xCA] [0x02, 0xFF])) (bufSeen .pr 4) =
      some ([0xA6, 0x64, 0x76, 0x1B], 0, 0x00000002) := by decide +kernel

/-- V26. -/
theorem test_polyMul_bad_length : seen (exec .polyMul (withPolys 2 257 [] [])) statusWord = some 0x00100404 := by
  decide +kernel

/-- V29. -/
theorem test_rsGenpoly :
    seen (exec .rsGenpoly (withBlock 0 0 7 [] [])) (bufSeen .gen 8) =
      some ([0x01, 0x7F, 0x7A, 0x9A, 0xA4, 0x0B, 0x44, 0x75], 0, 0x00000002) := by decide +kernel

/-- V29c. -/
theorem test_rsGenpoly_bad_length : seen (exec .rsGenpoly (withBlock 0 0 0 [] [])) statusWord = some 0x00110404 := by
  decide +kernel

/-! ## Reed-Solomon (3.3, 3.4) -/

/-- V32. -/
theorem test_rsEncode :
    seen (exec .rsEncode (withBlock 0 3 4 [0x12, 0x34, 0x56] [])) (bufSeen .ecb 4) =
      some ([0x37, 0xE6, 0x78, 0xD9], 0, 0x00000002) := by decide +kernel

/-- V39 and V39a: the length is checked before the range. -/
theorem test_rsEncode_bad :
    seen (exec .rsEncode (withBlock 4095 2 1 [] [])) statusWord = some 0x00200304 ∧
      seen (exec .rsEncode (withBlock 4095 0 1 [] [])) statusWord = some 0x00200404 := by decide +kernel

/-- V41 and V46. -/
theorem test_syndrome :
    seen (exec .syndrome (withBlock 0 2 2 [0x01, 0x02] [0x01, 0x02])) (bufSeen .syn 2) =
        some ([0x00, 0x00], 0, 0x0000000A) ∧
      seen (exec .syndrome (withBlock 0 2 1 [0x01, 0x02] [0x04])) (bufSeen .syn 1) =
        some ([0x07], 0, 0x00000002) := by decide +kernel

/-- V48. -/
theorem test_syndrome_bad : seen (exec .syndrome (withBlock 0 200 100 [] [])) statusWord = some 0x00210404 := by
  decide +kernel

/-! ## The interleaver and the formatter (3.5, 3.6) -/

/-- V50. -/
theorem test_interleave :
    seen (exec .interleave (withSymbol 13 9 2 [1, 2, 3, 4, 5, 6, 7, 8, 9])) (bufSeen .obuf 13) =
      some ([0x01, 0x05, 0x02, 0x06, 0x03, 0x07, 0x04, 0x08, 0x09, 0x04, 0x8F, 0x00, 0x8A], 0, 0x00000002) := by
  decide +kernel

/-- V56, V57c, V57d. -/
theorem test_interleave_bad :
    seen (exec .interleave (withSymbol 13 10 2 [])) statusWord = some 0x00300504 ∧
      seen (exec .interleave (withSymbol 4097 10 1 [])) statusWord = some 0x00300404 ∧
      seen (exec .interleave (withSymbol 10 1 2 [])) statusWord = some 0x00300404 := by decide +kernel

/-- V60 and V61 on their two codewords: the 16 bits are `0000 0001 0000 0101`; bit 16 is a remainder bit. -/
theorem test_fmtBit :
    ((List.range 17).map fun p => fmtBit { State.reset with
        mem := [(0x8000, 0x01), (0x8004, 0x05)], res := { ResultRegs.reset with outLen := 2 },
        ops := { OperandRegs.reset with fmtPtr := BitVec.ofNat 16 p } }) =
      [false, false, false, false, false, false, false, true,
       false, false, false, false, false, true, false, true, false] := by decide

/-! ## The bus, decode and reset (3.7) -/

/-- V71 and V72. -/
theorem test_register_fields :
    busRead 4 (busWrite 4 0xFFFFFF5A State.reset) = 0x0000005A ∧
      busRead 7 (busWrite 7 0x000003FF State.reset) = 0x000001FF := by decide +kernel

/-- V74, V75 and V76. -/
theorem test_bus_words :
    busWrite (wordAddr 0x0100) 5 State.reset = State.reset ∧ busWrite (wordAddr 0x1800) 0x55 State.reset = State.reset ∧
      busRead (wordAddr 0x400C) (busWrite (wordAddr 0x400C) 0x1234 State.reset) = 0x00000034 := by decide +kernel

/-- V77 and V78. -/
theorem test_illegal_words :
    seen (step (State.reset.withFetchWord 32 0x106)) statusWord = some 0x00060104 ∧
      seen (step (State.reset.withFetchWord 32 0x102)) statusWord = some 0x00020104 := by decide +kernel

/-- V80, V81. -/
theorem test_status_write :
    statusWord (busWrite 2 0x00000004 { State.reset with status := ⟨true, true, false, 0x02, 0x05⟩ }) = 0x00050202 ∧
      statusWord (busWrite 2 0xFFFFFFFF { State.reset with status := ⟨true, false, true, 0, 0⟩ }) = 0x00000008 := by
  decide +kernel

/-- V82 and V83. -/
theorem test_irq :
    (busWrite 1 2 { State.reset with status := ⟨true, false, false, 0, 0⟩ }).irq = true ∧
      (busWrite 2 4 { State.reset with irqEn := true, status := ⟨false, true, false, 2, 5⟩ }).irq = false := by
  decide +kernel

/-- V85 through a step: the soft reset is taken before the pending completion (R820). -/
theorem test_soft_reset_step :
    seen (step { running 0x20 .host [.access (.write 1 1)] with turns := [] }) id =
      some { State.reset with resp := .wrote } := by decide +kernel

/-- V85 and V86: a running RS_ENCODE does not hold CTRL, whose soft reset abandons it; it holds a read of OBUF[0]. -/
theorem test_soft_reset_and_hold :
    hostTurn (running 0x20 .host [.access (.write 1 1)]) = { State.reset with turns := [.host], resp := .wrote } ∧
      hostTurn (running 0x20 .host [.access (.read (wordAddr 0x8000))]) =
        running 0x20 .host [.access (.read (wordAddr 0x8000))] := by decide +kernel

/-- The bus accesses of program P1's `gf.mul 0x53, 0xCA`, and of `clr` and `bit 7` (R308). -/
theorem test_pseudo :
    Pseudo.expand (.gfMul 0x53 0xCA) =
        [.access (.write 4 0x53), .access (.write 5 0xCA), .access (.write 3 0x2), .access (.read 6)] ∧
      Pseudo.expand .clr = [.access (.write 2 0x6)] ∧
      Pseudo.expand (.bit 7) = [.access (.write 17 7), .access (.read 18)] := by decide

/-! ## Witnesses: a state that meets the hypotheses of each statement that has some

`step s` answers a next state for every `s`, so a statement about `step s = .next t` is met as soon as its other
hypotheses are. -/

/-- With MAX_LATENCY open, the host may move in the first steps of a command. -/
theorem whoMoves_running (v : Word) (ops : List HostOp) : whoMoves (running v .host ops) = .host := by
  simp [whoMoves, running, completionDue, Config.maxLatency, State.reset]

theorem witness_StepRunsTheDecodedCommand :
    (∃ s v i, s.eng = .run v ∧ whoMoves s = .engine ∧ decode v = .command i) ∧
      ∃ s v why, s.eng = .run v ∧ whoMoves s = .engine ∧ decode v = .illegal why :=
  ⟨⟨running 0x30 .engine [], 0x30, .interleave, rfl, rfl, by decide⟩,
    ⟨running 0x31 .engine [], 0x31, .reservedOpcode, rfl, rfl, by decide⟩⟩

/-- A reserved OPCODE beside a listed one, and a listed one under a non-zero ZERO field. -/
theorem witness_UnlistedWordRaisesIllegalCommand :
    ∀ v ∈ [(0x06 : Word), 0x100, 0x80000030],
      v.toNat ∉ [0x00, 0x01, 0x02, 0x03, 0x04, 0x05, 0x10, 0x11, 0x20, 0x21, 0x30] := by
  simp

theorem witness_CmdWriteStartsTheCommand :
    ∃ (s : State) (v : Word) (rest : List HostOp), s.eng = .idle ∧ whoMoves s = .host ∧
      s.host = .access (.write (wordAddr 0x00C) v) :: rest :=
  ⟨withHost [.access (.write (wordAddr 0x00C) 0x02)], 0x02, [], rfl, rfl, rfl⟩

/-- While BUSY reads 1, and when it reads 0. -/
theorem witness_WaitPollsStatusUntilIdle :
    (∃ (s : State) (rest : List HostOp), whoMoves s = .host ∧ s.host = .wait :: rest ∧ s.busy = true) ∧
      ∃ (s : State) (rest : List HostOp), whoMoves s = .host ∧ s.host = .wait :: rest ∧ s.busy = false :=
  ⟨⟨running 0x02 .host [.wait], [], whoMoves_running _ _, rfl, rfl⟩, ⟨withHost [.wait], [], rfl, rfl, rfl⟩⟩

/-- At the first and the last held word. -/
theorem witness_RunningCommandHoldsAccesses :
    ∀ addr ∈ [wordAddr 0x00C, wordAddr 0xFFFC], ∃ (s : State) (v : Word) (a : Access) (rest : List HostOp),
      s.eng = .run v ∧ whoMoves s = .host ∧ s.host = .access a :: rest ∧ a.addr = addr ∧
        byteOffset a.addr ∉ [0x000, 0x004, 0x008] := by
  intro addr h
  refine ⟨running 0x02 .host [.access (.read addr)], 0x02, .read addr, [], rfl, whoMoves_running _ _, rfl, rfl, ?_⟩
  simp only [List.mem_cons, List.not_mem_nil, or_false] at h
  rcases h with rfl | rfl <;> decide

/-- From idle at any word, and from a running command at STATUS. -/
theorem witness_ReadHasNoSideEffect :
    (∃ (s : State) (addr : BitVec 14) (rest : List HostOp), whoMoves s = .host ∧
        s.host = .access (.read addr) :: rest ∧ s.eng = .idle) ∧
      ∃ (s : State) (addr : BitVec 14) (rest : List HostOp), whoMoves s = .host ∧
        s.host = .access (.read addr) :: rest ∧ byteOffset addr ∈ [0x000, 0x004, 0x008] ∧ s.busy = true :=
  ⟨⟨withHost [.access (.read 0x2000)], 0x2000, [], rfl, rfl, rfl⟩,
    ⟨running 0x02 .host [.access (.read 2)], 2, [], whoMoves_running _ _, rfl, by decide, rfl⟩⟩

/-- From idle at a buffer entry, and to each of ID, CTRL and STATUS while a command runs. -/
theorem witness_WriteHasItsEffect :
    (∃ (s : State) (addr : BitVec 14) (v : Word) (rest : List HostOp), whoMoves s = .host ∧
        s.host = .access (.write addr v) :: rest ∧ s.eng = .idle) ∧
      ∀ addr ∈ [(0 : BitVec 14), 1, 2], ∃ (s : State) (v : Word) (rest : List HostOp), whoMoves s = .host ∧
        s.host = .access (.write addr v) :: rest ∧ byteOffset addr ∈ [0x000, 0x004, 0x008] ∧ s.busy = true := by
  refine ⟨⟨withHost [.access (.write 0x1003 0x34)], 0x1003, 0x34, [], rfl, rfl, rfl⟩, fun addr h => ?_⟩
  refine ⟨running 0x02 .host [.access (.write addr 2)], 2, [], whoMoves_running _ _, rfl, ?_, rfl⟩
  simp only [List.mem_cons, List.not_mem_nil, or_false] at h
  rcases h with rfl | rfl | rfl <;> decide

/-- The host acknowledges flags while a command runs. -/
theorem witness_HostCannotDisturbARunningCommand :
    ∃ (s t : State) (v : Word), s.eng = .run v ∧ whoMoves s = .host ∧ ¬ softResetNext s ∧ step s = .next t := by
  refine ⟨running 0x02 .host [.access (.write (wordAddr 0x008) 6)],
    hostTurn (running 0x02 .host [.access (.write (wordAddr 0x008) 6)]).tick, 0x02, rfl, whoMoves_running _ _, ?_, ?_⟩
  · rintro ⟨v, rest, h, _⟩
    simp [running] at h
    exact absurd h.1.1 (by decide)
  · rw [step, whoMoves_running]

/-- A CMD write from idle; a completion of a running command. -/
theorem witness_EngineMovesOnlyByCmdCompletionOrReset :
    (∃ s t : State, step s = .next t ∧ s.eng = .idle ∧ t.eng ≠ .idle) ∧
      ∃ (s t : State) (v : Word), step s = .next t ∧ s.eng = .run v ∧ t.eng ≠ .run v :=
  ⟨⟨withHost [.access (.write 3 0x02)], _, rfl, rfl, by decide⟩,
    ⟨running 0x00 .engine [], _, 0x00, rfl, rfl, by decide⟩⟩

/-- Each flag cleared by the host, each set by a completion, and SYN_ZERO set by SYNDROME. -/
theorem witness_FlagsAreSticky :
    (∃ s t : State, step s = .next t ∧ s.status.done = true ∧ t.status.done = false) ∧
    (∃ s t : State, step s = .next t ∧ s.status.fault = true ∧ t.status.fault = false) ∧
    (∃ s t : State, step s = .next t ∧ s.status.done = false ∧ t.status.done = true) ∧
    (∃ s t : State, step s = .next t ∧ s.status.fault = false ∧ t.status.fault = true) ∧
    ∃ s t : State, step s = .next t ∧ t.status.synZero ≠ s.status.synZero := by
  refine ⟨⟨{ withHost [.access (.write 2 2)] with status := ⟨true, false, false, 0, 0⟩ }, _, rfl, rfl, by decide⟩,
    ⟨{ withHost [.access (.write 2 4)] with status := ⟨false, true, false, 2, 5⟩ }, _, rfl, rfl, by decide⟩,
    ⟨running 0x00 .engine [], _, rfl, rfl, by decide⟩, ⟨running 0x06 .engine [], _, rfl, rfl, by decide⟩,
    ⟨{ withBlock 0 1 1 [] [] with eng := .run 0x21 }, _, rfl, by decide +kernel⟩⟩

theorem witness_CommandEndsWithinMaxLatency : ∃ s : State, s.busy = true ∧ s.age < Config.maxLatency :=
  ⟨running 0x20 .host [], rfl, by simp [running, State.reset, Config.maxLatency]⟩

/-- Every command answers a next state: the hypothesis of the statements about `exec i s = .next t`. -/
theorem witness_exec_next (i : Instr) : ∃ s t : State, exec i s = .next t := by
  rcases exec_cases i State.reset with h | ⟨_, _, h⟩
  · exact ⟨_, _, h.2⟩
  · exact ⟨_, _, h⟩

theorem witness_GfMulWritesTheProduct :
    (∃ s : State, s.ops.argA = 0 ∨ s.ops.argB = 0) ∧ ∃ s : State, s.ops.argA ≠ 0 ∧ s.ops.argB ≠ 0 :=
  ⟨⟨withArgs 0xFF 0, .inr rfl⟩, ⟨withArgs 0xFF 1, by decide, by decide⟩⟩

/-- For GF_INV and GF_LOG. -/
theorem witness_GfInv_GfLog : (∃ s : State, s.ops.argA ≠ 0) ∧ ∃ s : State, s.ops.argA = 0 :=
  ⟨⟨withArgs 0xFF 0, by decide⟩, ⟨withArgs 0 0, rfl⟩⟩

/-- For the field statements: the edges of their index and element ranges. -/
theorem witness_field : (∃ a : Byte, a ≠ 0) ∧ (∃ i j : Nat, i < 255 ∧ j < 255 ∧ gfExp i = gfExp j) ∧ 254 < 255 :=
  ⟨⟨1, by decide⟩, ⟨254, 254, by decide, by decide, rfl⟩, by decide⟩

/-- At la = lb = 1 and at la = lb = 256. -/
theorem witness_PolyMulWritesTheProduct :
    ∀ l ∈ [1, 256], ∃ s : State, opLa s = l ∧ opLb s = l ∧ 1 ≤ opLa s ∧ opLa s ≤ 256 ∧ 1 ≤ opLb s ∧ opLb s ≤ 256 := by
  intro l h
  simp only [List.mem_cons, List.not_mem_nil, or_false] at h
  rcases h with rfl | rfl
  · exact ⟨withPolys 1 1 [] [], by decide⟩
  · exact ⟨withPolys 256 256 [] [], by decide⟩

theorem witness_PolyMulRefusesBadLengths :
    (∃ s, opLa s < 1) ∧ (∃ s, opLa s > 256 ∧ opLb s = 1) ∧ (∃ s, opLb s < 1 ∧ opLa s = 1) ∧
      ∃ s, opLb s > 256 ∧ opLa s = 1 :=
  ⟨⟨withPolys 0 1 [] [], by decide⟩, ⟨withPolys 257 1 [] [], by decide⟩, ⟨withPolys 1 0 [] [], by decide⟩,
    ⟨withPolys 1 257 [] [], by decide⟩⟩

theorem witness_ProductArrayIsThePolynomialProduct : ∃ A B : List Byte, A ≠ [] ∧ B ≠ [] :=
  ⟨[0x53, 0x01, 0xCA], [0x02, 0xFF], by decide, by decide⟩

theorem witness_RsGenpolyWritesTheGenerator :
    (∃ s, opK s = 1) ∧ (∃ s, opK s = 255) ∧ ∃ s, opK s = 0 :=
  ⟨⟨withBlock 0 0 1 [] [], rfl⟩, ⟨withBlock 0 0 255 [] [], rfl⟩, ⟨withBlock 0 0 0 [] [], rfl⟩⟩

theorem witness_GeneratorHasRootsAtPowersOfAlpha : ∃ k i : Nat, k ≤ 255 ∧ i < k := ⟨255, 254, by decide, by decide⟩

/-- For RS_ENCODE and SYNDROME: the shortest block, the longest data, the most EC bytes, the last data byte of DBUF. -/
theorem witness_rsLegal :
    rsLegal (withBlock 0 1 1 [] []) ∧ rsLegal (withBlock 0 254 1 [] []) ∧ rsLegal (withBlock 0 1 254 [] []) ∧
      rsLegal (withBlock 4095 1 1 [] []) := by unfold rsLegal; decide

/-- Equal data at two places of DBUF, with other ECB contents. -/
theorem witness_EcBytesDependOnDataAndDegreeOnly :
    ∃ s s' t t' : State, rsLegal s ∧ rsLegal s' ∧ opN s = opN s' ∧ opK s = opK s' ∧
      (∀ i, i < opN s → s.entry .dbuf (opS s + i) = s'.entry .dbuf (opS s' + i)) ∧ exec .rsEncode s = .next t ∧
      exec .rsEncode s' = .next t' :=
  ⟨withBlock 0 2 2 [1, 2] [9], withBlock 100 2 2 [1, 2] [], _, _, by unfold rsLegal; decide, by unfold rsLegal; decide,
    rfl, rfl, by decide +kernel, exec_of_passes (by unfold passes; decide), exec_of_passes (by unfold passes; decide)⟩

theorem witness_EcBytesAreTheRemainder : ∃ (d r : List Byte) (k : Nat), d ≠ [] ∧ 1 ≤ k ∧ r.length = k :=
  ⟨[1, 2], [1, 2], 2, by decide, by decide, rfl⟩

/-- Each length check, and BUF_RANGE at s + n = 4097. -/
theorem witness_RsCommandsRefuseBadOperands :
    (∃ s, opN s < 1) ∧ (∃ s, 1 ≤ opN s ∧ opK s < 1) ∧ (∃ s, 1 ≤ opN s ∧ 1 ≤ opK s ∧ opN s + opK s = 256) ∧
      ∃ s, 1 ≤ opN s ∧ 1 ≤ opK s ∧ opN s + opK s ≤ 255 ∧ opS s + opN s = 4097 :=
  ⟨⟨withBlock 0 0 1 [] [], by decide⟩, ⟨withBlock 0 1 0 [] [], by decide⟩, ⟨withBlock 0 254 2 [] [], by decide⟩,
    ⟨withBlock 4095 2 1 [] [], by decide⟩⟩

theorem witness_EncodedBlockHasZeroSyndromes : ∃ s t : State, rsLegal s ∧ exec .rsEncode s = .next t :=
  ⟨withBlock 4095 1 254 [0xFF] [], _, by unfold rsLegal; decide, exec_of_passes (by unfold passes; decide)⟩

/-- V50, V58a, V59a, and a symbol of 4096 codewords. -/
theorem witness_InterleaveWritesTheCodewords :
    (∃ s, opT s = 13 ∧ ilLegal (opT s) (opD s) (opB' s)) ∧ (∃ s, opT s = 510 ∧ ilLegal (opT s) (opD s) (opB' s)) ∧
      (∃ s, opT s = 255 ∧ ilLegal (opT s) (opD s) (opB' s)) ∧ ∃ s, opT s = 4096 ∧ ilLegal (opT s) (opD s) (opB' s) := by
  unfold ilLegal
  exact ⟨⟨withSymbol 13 9 2 [], by decide⟩, ⟨withSymbol 510 256 2 [], by decide⟩, ⟨withSymbol 255 1 1 [], by decide⟩,
    ⟨withSymbol 4096 33 17 [], by decide⟩⟩

/-- V50: both groups have a block, the last data row is short, and every index range is met at its ends. -/
theorem witness_CodewordsAreInterleavedByColumns :
    ∃ (T D B : Nat) (d : List Byte), 1 ≤ B ∧ B ≤ D ∧ D < T ∧ (T - D) % B = 0 ∧ d.length = D ∧
      (∃ i b, i < D / B ∧ b < B) ∧ (∃ b, B - T % B ≤ b ∧ b < B) ∧ ∃ i b, i < T / B - D / B ∧ b < B :=
  ⟨13, 9, 2, [1, 2, 3, 4, 5, 6, 7, 8, 9], by decide, by decide, by decide, by decide, rfl, ⟨3, 1, by decide, by decide⟩,
    ⟨1, by decide, by decide⟩, ⟨1, 1, by decide, by decide⟩⟩

/-- Both sides of rule R702: V50 and V56. -/
theorem witness_SplitUsesAllDataIffEcCountsMatch :
    (∃ T D B : Nat, 1 ≤ B ∧ B ≤ D ∧ D < T ∧ (T - D) % B = 0) ∧ ∃ T D B : Nat, 1 ≤ B ∧ B ≤ D ∧ D < T ∧ (T - D) % B ≠ 0 :=
  ⟨⟨13, 9, 2, by decide⟩, ⟨13, 10, 2, by decide⟩⟩

/-- Each check fails alone, at its boundary: V57b, V57c, V57d, V57, V59b, V58. -/
theorem witness_InterleaveRefusesBadCounts :
    (∃ s, opB' s < 1) ∧ (∃ s, 1 ≤ opB' s ∧ opT s > 4096) ∧ (∃ s, 1 ≤ opB' s ∧ opT s ≤ 4096 ∧ opD s < opB' s) ∧
    (∃ s, 1 ≤ opB' s ∧ opT s ≤ 4096 ∧ opB' s ≤ opD s ∧ opD s ≥ opT s) ∧
    (∃ s, 1 ≤ opB' s ∧ opT s ≤ 4096 ∧ opB' s ≤ opD s ∧ opD s < opT s ∧
      opT s / opB' s + (if opT s % opB' s > 0 then 1 else 0) = 256) ∧
    ∃ s, 1 ≤ opB' s ∧ opT s ≤ 4096 ∧ opB' s ≤ opD s ∧ opD s < opT s ∧
      opT s / opB' s + (if opT s % opB' s > 0 then 1 else 0) ≤ 255 ∧ (opT s - opD s) % opB' s ≠ 0 :=
  ⟨⟨withSymbol 0 0 0 [], by decide⟩, ⟨withSymbol 4097 10 1 [], by decide⟩, ⟨withSymbol 10 1 2 [], by decide⟩,
    ⟨withSymbol 13 13 1 [], by decide⟩, ⟨withSymbol 256 1 1 [], by decide⟩, ⟨withSymbol 510 255 2 [], by decide⟩⟩

/-- The ends of the reserved ranges. -/
theorem witness_ReservedWordsReadZeroAndIgnoreWrites :
    [0x04C, 0xFFC, 0x2C00, 0x3FFC, 0xC000, 0xFFFC].all (fun off =>
      let o := byteOffset (wordAddr off)
      decide ((0x04C ≤ o ∧ o < 0x1000) ∨ (0x2C00 ≤ o ∧ o < 0x4000) ∨ 0xC000 ≤ o)) = true := by decide

/-- The last entry of every buffer, for the statements about entries. -/
theorem witness_entries :
    ∀ b ∈ [Buf.pa, .pb, .pr, .gen, .ecb, .syn, .dbuf, .obuf], ∃ i, i < b.size ∧ ¬ i + 1 < b.size := by
  intro b _
  exact ⟨b.size - 1, by cases b <;> decide, by cases b <;> decide⟩

theorem witness_BufferWriteReadsBackItsLowByte :
    ∃ (s : State) (b : Buf) (i : Nat), Memory.wf s.mem ∧ b ∈ [Buf.pa, .pb, .ecb, .dbuf] ∧ i < b.size ∧
      ∃ addr, addr ≠ wordAddr (b.offset i) :=
  ⟨withBlock 0 2 2 [1, 2] [1, 2], .dbuf, 4095, by decide, by decide, by decide, 0, by decide⟩

/-- For the operand and the read-only registers. -/
theorem witness_registers : Reg.fmtPtr ∈ operandRegs ∧ Reg.fmtBit ∈ readOnly := by decide

/-- Both values of bit 1, over a flag that is already set (V82). -/
theorem witness_CtrlWriteSetsIrqEnable :
    (∃ (s : State) (v : Word), v.getLsbD 0 = false ∧ v.getLsbD 1 = true ∧ s.status.done = true) ∧
      ∃ v : Word, v.getLsbD 0 = false ∧ v.getLsbD 1 = false :=
  ⟨⟨{ State.reset with status := ⟨true, false, false, 0, 0⟩ }, 2, by decide, by decide, rfl⟩, ⟨4, by decide, by decide⟩⟩

/-- The pin, over a running command, and the CTRL write of V84. -/
theorem witness_BothResetsLeaveTheResetState :
    (∃ s : State, whoMoves s = .reset ∧ s.busy = true) ∧ ∃ (s : State) (v : Word) (rest : List HostOp),
      whoMoves s = .host ∧ s.host = .access (.write (wordAddr 0x004) v) :: rest ∧ v.getLsbD 0 = true :=
  ⟨⟨running 0x20 .reset [], rfl, rfl⟩, ⟨withHost [.access (.write (wordAddr 0x004) 3)], 3, [], rfl, rfl, by decide⟩⟩

/-- At the bound of the running command, by either reset. -/
theorem witness_ResetPrecedesADueCompletion :
    (∃ (s : State) (w : Word) (ts : List Turn), s.eng = .run w ∧ completionDue s = true ∧ s.turns = .reset :: ts) ∧
      ∃ (s : State) (w v : Word) (ts : List Turn) (rest : List HostOp), s.eng = .run w ∧ completionDue s = true ∧
        s.turns = .host :: ts ∧ s.host = .access (.write (wordAddr 0x004) v) :: rest ∧ v.getLsbD 0 = true := by
  refine ⟨⟨{ running 0x20 .reset [] with age := Config.maxLatency - 1 }, 0x20, [], rfl, ?_, rfl⟩,
    ⟨{ running 0x20 .host [.access (.write (wordAddr 0x004) 1)] with age := Config.maxLatency - 1 }, 0x20, 1, [], [],
      rfl, ?_, rfl, rfl, by decide⟩⟩ <;>
    simp [completionDue, State.busy, running, Config.maxLatency]

/-- A running command, a recorded fault, a stored entry and SYN_ZERO: every clause of the invariant is met. -/
def busyState : State :=
  { running 0x00 .engine [] with mem := [(0x4000, 0x53)], status := ⟨true, true, true, 0x02, 0x05⟩ }

theorem witness_InvariantIsKept : ∃ s t : State, Inv s ∧ step s = .next t := by
  have read : ∀ b i, b ≠ Buf.dbuf → i < b.size → busyState.entry b i = 0 := by
    intro b i hb hi
    have : b.offset i ≠ 0x4000 := by
      intro h
      cases b <;> simp [Buf.offset, Buf.base, Buf.size, Config.polyMax, Config.prSize, Config.bufSize] at * <;> omega
    simp [State.entry, busyState, Memory.read, Ne.symm this]
  refine ⟨busyState, _, ⟨by decide, by decide, by decide, fun _ => by decide, by decide, ?_, by decide, ?_, by decide, ?_,
    fun _ => by simp [busyState, running, State.reset, Config.maxLatency]⟩, rfl⟩
  · exact fun i _ h => read _ i (by decide) h
  · exact fun i _ h => read _ i (by decide) h
  · exact fun _ i h => read _ i (by decide) h

/-- GEN holds g_1 = x + 1 (R520). -/
theorem witness_GenAlwaysHoldsAGenerator : ∃ s t : State, genHoldsGenerator s ∧ step s = .next t :=
  ⟨{ running 0x00 .engine [] with mem := [(0x2000, 1), (0x2004, 1)] }, _,
    .inr ⟨1, by decide, by decide, by decide +kernel⟩, rfl⟩

theorem witness_PlatformAddressReachesTheAlignedWord : ∃ off a : Nat, off < 65536 ∧ Config.base + 65536 ≤ a :=
  ⟨65535, Config.base + 65536, by decide, le_refl _⟩

end Sys2Proof.Tests
end

/-! SUPPORT. Proofs about the block's state: what a command, a host access and a step change, and the invariant. -/

namespace Sys2Proof.Machine
open Sys2Proof.Ref

/-! ## What a command's effect writes, and what it leaves alone -/

/-- What replacing a buffer keeps of the memory, every command's effect keeps: it makes no other change to it. -/
theorem effectOf_mem_induction {P : Memory → Prop}
    (hfill : ∀ m (b : Buf) vs, P m → P (Memory.fill m b.base b.size vs)) (i : Instr) {s : State} (h : P s.mem) :
    P (effectOf i s).mem := by
  cases i
  case polyMul | rsGenpoly | syndrome | interleave => exact hfill _ _ _ h
  case rsEncode => exact hfill _ _ _ (hfill _ _ _ h)
  all_goals exact h

theorem pr_mem_writes {i : Instr} : Buf.pr ∈ writes i ↔ i = .polyMul := by cases i <;> decide

theorem syn_mem_writes {i : Instr} : Buf.syn ∈ writes i ↔ i = .syndrome := by cases i <;> decide

theorem obuf_mem_writes {i : Instr} : Buf.obuf ∈ writes i ↔ i = .interleave := by cases i <;> decide

/-- The buffers outside a command's row keep their entries (R141). -/
theorem effectOf_entry_other {i : Instr} (s : State) {b : Buf} (hb : b ∉ writes i) {j : Nat} (hj : j < b.size) :
    (effectOf i s).entry b j = s.entry b j := by
  cases i <;> simp only [writes, List.mem_cons, List.not_mem_nil, or_false, not_or] at hb
  case polyMul | rsGenpoly | syndrome | interleave => exact State.entry_setBuf_other s hb _ hj
  case rsEncode =>
    obtain ⟨hgen, hecb⟩ := hb
    exact (State.entry_setBuf_other _ hecb _ hj).trans (State.entry_setBuf_other s hgen _ hj)
  all_goals rfl

/-- Only a scalar command writes RESULT (R117). -/
theorem effectOf_result {i : Instr} (s : State) (h : i ∉ [.gfAdd, .gfMul, .gfInv, .gfExp, .gfLog]) :
    (effectOf i s).res.result = s.res.result := by
  cases i
  case gfAdd | gfMul | gfInv | gfExp | gfLog => exact absurd (by decide) h
  all_goals rfl

/-- Only POLY_MUL writes PR_LEN (R120). -/
theorem effectOf_prLen {i : Instr} (s : State) (h : i ≠ .polyMul) : (effectOf i s).res.prLen = s.res.prLen := by
  cases i
  case polyMul => exact absurd rfl h
  all_goals rfl

/-- Only INTERLEAVE writes OUT_LEN (R127). -/
theorem effectOf_outLen {i : Instr} (s : State) (h : i ≠ .interleave) : (effectOf i s).res.outLen = s.res.outLen := by
  cases i
  case interleave => exact absurd rfl h
  all_goals rfl

/-- Only SYNDROME writes SYN_ZERO (R132). -/
theorem effectOf_synZero {i : Instr} (s : State) (h : i ≠ .syndrome) :
    (effectOf i s).status.synZero = s.status.synZero := by
  cases i
  case syndrome => exact absurd rfl h
  all_goals rfl

/-- A completion reads neither ENG nor the age. -/
theorem exec_toIdle (i : Instr) (s : State) : exec i s.toIdle = exec i s := by
  cases i <;> rfl

/-! ## How many codewords INTERLEAVE makes -/

/-- Column `i` holds one byte of each block longer than `i` (R704). -/
theorem column_length_add (blocks : List (List Byte)) (i : Nat) :
    (blocks.map fun b => min i b.length).sum + (column blocks i).length =
      (blocks.map fun b => min (i + 1) b.length).sum := by
  induction blocks with
  | nil => rfl
  | cons b blocks ih =>
    by_cases hi : i < b.length
    · have hc : column (b :: blocks) i = b[i] :: column blocks i := by simp [column, hi]
      simp only [List.map_cons, List.sum_cons, hc, List.length_cons]
      omega
    · have hc : column (b :: blocks) i = column blocks i := by simp [column, hi]
      simp only [List.map_cons, List.sum_cons, hc]
      omega

/-- The first `len` columns hold the first `len` bytes of every block (R704). -/
theorem columns_length (blocks : List (List Byte)) (len : Nat) :
    (columns blocks len).length = (blocks.map fun b => min len b.length).sum := by
  induction len with
  | zero => simp [columns]
  | succ len ih =>
    have hsucc : columns blocks (len + 1) = columns blocks len ++ column blocks len := by
      simp [columns, List.range_succ]
    rw [hsucc, List.length_append, ih, column_length_add]

theorem splitRuns_length_sum_le (ns : List Nat) (d : List Byte) :
    ((splitRuns ns d).map List.length).sum ≤ d.length := by
  induction ns generalizing d with
  | nil => simp [splitRuns]
  | cons n ns ih =>
    have := ih (d.drop n)
    simp only [splitRuns, List.map_cons, List.sum_cons, List.length_take, List.length_drop] at this ⊢
    omega

/-- The data columns hold no more than the data (R701, R704). -/
theorem dataColumns_length_le (T D B len : Nat) (d : List Byte) :
    (columns (dataBlocks T D B d) len).length ≤ d.length := by
  rw [columns_length]
  exact (List.sum_le_sum fun b _ => Nat.min_le_right len b.length).trans (splitRuns_length_sum_le _ _)

/-- The EC columns hold at most e bytes of each of the B blocks (R703, R704). -/
theorem ecColumns_length_le (T D B : Nat) (d : List Byte) :
    (columns (ecBlocks T D B d) (ecPerBlock T D B)).length ≤ B * ecPerBlock T D B := by
  have hcount : (ecBlocks T D B d).length = B := by simp [ecBlocks, dataBlocks, splitRuns_length, blockSizes]
  rw [columns_length]
  have := List.sum_le_card_nsmul ((ecBlocks T D B d).map fun b => min (ecPerBlock T D B) b.length)
    (ecPerBlock T D B) (by simp)
  simpa [hcount] using this

/-- INTERLEAVE makes at most T codewords when the EC bytes divide evenly (R702, R704). -/
theorem interleave_length_le {T D B : Nat} {d : List Byte} (hB : 1 ≤ B) (hDT : D ≤ T) (hd : d.length = D)
    (hmod : (T - D) % B = 0) : (interleave T D B d).length ≤ T := by
  obtain ⟨q, hq⟩ := Nat.dvd_of_mod_eq_zero hmod
  have hT : T = D + B * q := by omega
  have he : ecPerBlock T D B = q := by
    rw [ecPerBlock, hT, Nat.add_mul_div_left _ _ (by omega)]
    omega
  have hdata := dataColumns_length_le T D B ((blockSizes T D B).foldr max 0) d
  have hec := ecColumns_length_le T D B d
  rw [he] at hec
  simp only [interleave, List.length_append, he]
  omega

/-! ## The memory of the invariant -/

theorem Buf.mem_allBufs (b : Buf) : b ∈ allBufs := by cases b <;> decide

theorem Buf.covers_offset {b : Buf} {i : Nat} (hi : i < b.size) : b.covers (b.offset i) = true := by
  simp [Buf.covers, Buf.offset, hi]

/-- The word of an entry is an entry's word. -/
theorem entryOffset_offset {b : Buf} {i : Nat} (hi : i < b.size) : entryOffset (b.offset i) = true := by
  obtain ⟨-, -, h4⟩ := Buf.offset_bounds hi
  simp only [entryOffset, h4, beq_self_eq_true, Bool.true_and]
  exact List.any_eq_true.mpr ⟨b, Buf.mem_allBufs b, Buf.covers_offset hi⟩

/-- Replacing a buffer stores nothing outside the buffers. -/
theorem Memory.fill_onlyEntries {m : Memory} (h : ∀ c ∈ m, entryOffset c.1 = true) (b : Buf) (vs : List Byte) :
    ∀ c ∈ Memory.fill m b.base b.size vs, entryOffset c.1 = true := by
  intro c hc
  rcases Memory.mem_fill hc with ⟨hc, -⟩ | ⟨i, hi, hoff, -⟩
  · exact h c hc
  · exact hoff ▸ entryOffset_offset hi

/-- Storing an entry stores nothing outside the buffers. -/
theorem Memory.write_onlyEntries {m : Memory} (h : ∀ c ∈ m, entryOffset c.1 = true) {b : Buf} {i : Nat}
    (hi : i < b.size) (v : Byte) : ∀ c ∈ Memory.write m (b.offset i) v, entryOffset c.1 = true := by
  intro c hc
  rcases Memory.mem_write hc with hc | ⟨rfl, -⟩
  · exact h c hc
  · exact entryOffset_offset hi

/-! ## The invariant, operation by operation -/

/-- The invariant reads the buffers, PR_LEN, OUT_LEN, the flags but DONE, the fault record and the bound alone. -/
theorem Inv.congr {s t : State} (h : Inv s) (hmem : t.mem = s.mem) (hpr : t.res.prLen = s.res.prLen)
    (hout : t.res.outLen = s.res.outLen) (hfault : t.status.fault = true → s.status.fault = true)
    (hcode : t.status.faultCode = s.status.faultCode) (hop : t.status.faultOp = s.status.faultOp)
    (hsyn : t.status.synZero = s.status.synZero) (hage : t.busy = true → t.age < Config.maxLatency) : Inv t where
  canonical := hmem ▸ h.canonical
  onlyEntries := hmem ▸ h.onlyEntries
  code := hcode ▸ h.code
  cause := fun hf => hcode ▸ h.cause (hfault hf)
  noOp := by rw [hcode, hop]; exact h.noOp
  product := by simp only [hpr, State.entry_congr hmem]; exact h.product
  productLen := hpr ▸ h.productLen
  output := by simp only [hout, State.entry_congr hmem]; exact h.output
  outputLen := hout ▸ h.outputLen
  syndromes := by simp only [hsyn, State.entry_congr hmem]; exact h.syndromes
  latency := hage

/-- The reset state meets the invariant (R160). -/
theorem Inv.reset : Inv State.reset := by
  have hentry : ∀ b i, State.reset.entry b i = 0 := fun _ _ => rfl
  exact ⟨State.reset_mem_wf, by simp [State.reset], by decide, by decide, fun _ => rfl, fun i _ _ => hentry .pr i,
    by decide, fun i _ _ => hentry .obuf i, by decide, fun _ i _ => hentry .syn i, by decide⟩

theorem Inv.resetBlock (s : State) : Inv s.resetBlock :=
  Inv.reset.congr rfl rfl rfl id rfl rfl rfl (by simp [State.busy])

theorem Inv.toIdle {s : State} (h : Inv s) : Inv s.toIdle := h.congr rfl rfl rfl id rfl rfl rfl (by simp [State.busy])

/-- The code of every cause that some rule raises (R800, R807). -/
theorem FaultCode.code_bounds {c : FaultCode} (hc : c ≠ .lengthMismatch) : 1 ≤ c.code.toNat ∧ c.code.toNat ≤ 5 := by
  cases c
  case lengthMismatch => exact absurd rfl hc
  all_goals decide

/-- A recorded fault has its cause (R801). -/
theorem Inv.withFault {s : State} (h : Inv s) {c : FaultCode} (hc : c ≠ .lengthMismatch) (op : BitVec 8) :
    Inv (s.withFault c op) := by
  obtain ⟨hlo, hhi⟩ := FaultCode.code_bounds hc
  have hne : c.code ≠ 0 := fun h0 => by simp [h0] at hlo
  exact { h.toIdle with code := hhi, cause := fun _ => hne, noOp := fun h0 => absurd h0 hne }

theorem Inv.withDone {s : State} (h : Inv s) : Inv s.withDone :=
  h.congr rfl rfl rfl id rfl rfl rfl (by simp [State.busy])

/-- SYN_ZERO's rule speaks of every entry (R615). -/
theorem getD_of_allZero {vs : List Byte} (h : allZero vs = true) (i : Nat) : vs.getD i 0 = 0 := by
  by_cases hi : i < vs.length
  · have := List.all_eq_true.mp h vs[i] (List.getElem_mem hi)
    simpa [hi] using this
  · exact List.getD_eq_default _ _ (by omega)

/-- After a command's effect PR holds one product (R510). -/
theorem effectOf_product {i : Instr} {s : State} (h : Inv s) (hp : passes i s) :
    (effectOf i s).res.prLen.toNat ≤ 511 ∧
      ∀ j, (effectOf i s).res.prLen.toNat ≤ j → j < Buf.pr.size → (effectOf i s).entry .pr j = 0 := by
  by_cases hi : i = .polyMul
  · subst hi
    obtain ⟨⟨ha, ha'⟩, hb, hb'⟩ := (polyMul_passes s).mp hp
    have hlen : (effectOf .polyMul s).res.prLen.toNat = opLa s + opLb s - 1 := by
      simp only [effectOf, BitVec.toNat_ofNat]
      omega
    refine ⟨by omega, fun j hj hjs => ?_⟩
    calc (effectOf .polyMul s).entry .pr j = (polyMul (polyA s) (polyB s)).getD j 0 :=
          State.entry_setBuf_same s .pr _ hjs
      _ = 0 := List.getD_eq_default _ _ (by simp; omega)
  · have hw : Buf.pr ∉ writes i := mt pr_mem_writes.mp hi
    rw [effectOf_prLen s hi]
    exact ⟨h.productLen, fun j hj hjs => by rw [effectOf_entry_other s hw hjs]; exact h.product j hj hjs⟩

/-- After a command's effect OBUF holds one codeword sequence (R720). -/
theorem effectOf_output {i : Instr} {s : State} (h : Inv s) (hp : passes i s) :
    (effectOf i s).res.outLen.toNat ≤ Config.bufSize ∧
      ∀ j, (effectOf i s).res.outLen.toNat ≤ j → j < Buf.obuf.size → (effectOf i s).entry .obuf j = 0 := by
  by_cases hi : i = .interleave
  · subst hi
    obtain ⟨hB, hT, -, hDT, -, hmod⟩ := (interleave_passes s).mp hp
    have hlen : (effectOf .interleave s).res.outLen.toNat = opT s := by
      simp only [effectOf, BitVec.toNat_ofNat]
      omega
    refine ⟨hlen ▸ hT, fun j hj hjs => ?_⟩
    calc (effectOf .interleave s).entry .obuf j = (interleave (opT s) (opD s) (opB' s) (symbolData s)).getD j 0 :=
          State.entry_setBuf_same s .obuf _ hjs
      _ = 0 := List.getD_eq_default _ _
          ((interleave_length_le hB hDT.le (symbolData_length s) hmod).trans (hlen ▸ hj))
  · have hw : Buf.obuf ∉ writes i := mt obuf_mem_writes.mp hi
    rw [effectOf_outLen s hi]
    exact ⟨h.outputLen, fun j hj hjs => by rw [effectOf_entry_other s hw hjs]; exact h.output j hj hjs⟩

/-- After a command's effect SYN_ZERO tells the truth about SYN (R615). -/
theorem effectOf_syndromes (i : Instr) {s : State} (h : Inv s) (hz : (effectOf i s).status.synZero = true) :
    ∀ j, j < Buf.syn.size → (effectOf i s).entry .syn j = 0 := by
  intro j hj
  by_cases hi : i = .syndrome
  · subst hi
    calc (effectOf .syndrome s).entry .syn j = (Machine.syndromes (codeword s) (opK s)).getD j 0 :=
          State.entry_setBuf_same s .syn _ hj
      _ = 0 := getD_of_allZero hz j
  · have hw : Buf.syn ∉ writes i := mt syn_mem_writes.mp hi
    rw [effectOf_entry_other s hw hj]
    exact h.syndromes (effectOf_synZero s hi ▸ hz) j hj

theorem Inv.effectOf {s : State} (h : Inv s) {i : Instr} (hp : passes i s) : Inv (effectOf i s) where
  canonical := effectOf_mem_induction (P := Memory.wf) (fun _ b vs hm => Memory.fill_wf hm b.base b.size vs) i h.canonical
  onlyEntries := effectOf_mem_induction (P := fun m => ∀ c ∈ m, entryOffset c.1 = true)
    (fun _ b vs hm => Memory.fill_onlyEntries hm b vs) i h.onlyEntries
  code := by simpa using h.code
  cause := by simpa using h.cause
  noOp := by simpa using h.noOp
  product := (effectOf_product h hp).2
  productLen := (effectOf_product h hp).1
  output := (effectOf_output h hp).2
  outputLen := (effectOf_output h hp).1
  syndromes := effectOf_syndromes i h
  latency := by simpa [State.busy] using h.latency

/-- A completion keeps the invariant, even one that comes at the bound: it reads no age. -/
theorem Inv.exec {s t : State} (h : Inv s.toIdle) {i : Instr} (he : exec i s = .next t) : Inv t := by
  rw [← exec_toIdle] at he
  rcases exec_cases i s.toIdle with ⟨hp, hx⟩ | ⟨c, hc, hx⟩ <;> rw [hx] at he <;> cases he
  · exact (h.effectOf hp).withDone
  · exact h.withFault hc _

/-- The host writes no result buffer, and any other entry may hold anything (R141). -/
theorem Inv.setEntry {s : State} (h : Inv s) {b : Buf} (hb : b.hostWrites = true) {i : Nat} (hi : i < b.size)
    (v : Byte) : Inv (s.setEntry b i v) := by
  have hother : ∀ b' j, b'.hostWrites = false → j < b'.size → (s.setEntry b i v).entry b' j = s.entry b' j :=
    fun b' j hb' hj => State.entry_setEntry_other s hi hj (.inl (by rintro rfl; simp [hb] at hb')) v
  exact { h with
    canonical := Memory.write_wf h.canonical _ v
    onlyEntries := Memory.write_onlyEntries h.onlyEntries hi v
    product := fun j hj hjs => (hother .pr j rfl hjs).trans (h.product j hj hjs)
    output := fun j hj hjs => (hother .obuf j rfl hjs).trans (h.output j hj hjs)
    syndromes := fun hz j hjs => (hother .syn j rfl hjs).trans (h.syndromes hz j hjs) }

theorem Inv.busWrite {s : State} (h : Inv s) (addr : BitVec 14) (v : Word) : Inv (busWrite addr v s) := by
  rcases busWrite_cases addr v s with ⟨-, -, hw⟩ | ⟨-, -, hw⟩ | ⟨-, hw⟩ | ⟨-, hw⟩ | ⟨r, -, hw⟩ |
    ⟨b, i, hb, hi, -, hw⟩ | hw <;> rw [hw]
  · exact Inv.resetBlock s
  · exact h.congr rfl rfl rfl id rfl rfl rfl h.latency
  · exact h.congr rfl rfl rfl (fun hf => (Bool.and_eq_true_iff.mp hf).1) rfl rfl rfl h.latency
  · exact h.congr rfl rfl rfl id rfl rfl rfl fun _ => by simp [Config.maxLatency]
  · exact h.congr rfl rfl rfl id rfl rfl rfl h.latency
  · exact h.setEntry hb hi _
  · exact h

theorem Inv.hostTurn {s : State} (h : Inv s) : Inv (hostTurn s) := by
  rcases hostTurn_cases s with hs | ⟨op, rest, addr, -, -, hs⟩ | ⟨rest, addr, v, -, -, hs⟩ <;> rw [hs]
  · exact h
  · exact h.congr rfl rfl rfl id rfl rfl rfl h.latency
  · have hw := h.busWrite addr v
    exact hw.congr rfl rfl rfl id rfl rfl rfl hw.latency

/-- The host moves within the bound, or resets the block (R131, R820). -/
theorem Inv.hostTurn_tick {s : State} (h : Inv s) (hw : whoMoves s = .host) : Inv (Machine.hostTurn s.tick) := by
  by_cases hr : resetAsked s = true
  · have hr' : resetAsked s.tick = true := hr
    rw [hostTurn_of_resetAsked hr']
    exact (Inv.resetBlock s.tick).congr rfl rfl rfl id rfl rfl rfl (by simp [State.busy])
  · refine Inv.hostTurn (h.congr rfl rfl rfl id rfl rfl rfl fun hb => ?_)
    rw [State.tick_busy] at hb
    rw [State.tick_age, if_pos hb]
    exact (whoMoves_host_of_busy hw hb).resolve_right hr

/-- Settles O57: reset memory lists nothing, and every flag and length is 0. -/
theorem resetMeetsTheInvariant : Obligations.ResetMeetsTheInvariant := Inv.reset

/-- Settles O58, by who moves: a reset, an idle turn, a completion, an illegal word, or the host. -/
theorem invariantIsKept : Obligations.InvariantIsKept := by
  intro s t h hstep
  have hidle : Inv s.tick.toIdle := h.toIdle.congr rfl rfl rfl id rfl rfl rfl (by simp [State.busy])
  rcases step_cases s with ⟨-, hs⟩ | ⟨-, he, hs⟩ | ⟨v, i, -, -, -, hs⟩ | ⟨v, why, -, -, -, hs⟩ | ⟨hw, hs⟩ <;>
    rw [hs] at hstep
  · cases hstep
    exact Inv.resetBlock _
  · cases hstep
    exact h.congr rfl rfl rfl id rfl rfl rfl (by simp [State.busy, he])
  · exact hidle.exec hstep
  · cases hstep
    exact hidle.withFault (c := .illegalCommand) (by decide) _
  · cases hstep
    exact h.hostTurn_tick hw

/-! ## How a command ends -/

/-- No command is refused and none stops the block (R131, R831). -/
theorem exec_next (i : Instr) (s : State) : ∃ t, exec i s = .next t := by
  rcases exec_cases i s with ⟨-, h⟩ | ⟨c, -, h⟩ <;> exact ⟨_, h⟩

/-- A word that decodes to a command is its encoding (R300, R303). -/
theorem eq_encode_of_decode {v : Word} {i : Instr} (h : decode v = .command i) : v = encode i := by
  unfold decode at h
  split at h
  · cases h
  · rename_i hz
    split at h
    · rename_i j hj
      cases h
      rw [word_eq_fields v, opcode_of_commandOf hj, not_not.mp hz]
      rfl
    · cases h

/-- Everything a completion can do: a command's effect and DONE, or a recorded fault, of a command or of a word that is
none (R131, R802). -/
theorem complete_cases {v : Word} {s t : State} (h : complete v s = .next t) :
    (∃ i, v = encode i ∧ t = (effectOf i s).withDone) ∨ ∃ c op, t = s.withFault c op := by
  unfold complete at h
  split at h
  · rename_i i hd
    rcases exec_cases i s with ⟨-, hx⟩ | ⟨c, -, hx⟩ <;> rw [hx] at h <;> cases h
    · exact .inl ⟨i, eq_encode_of_decode hd, rfl⟩
    · exact .inr ⟨c, _, rfl⟩
  · cases h
    exact .inr ⟨_, _, rfl⟩

theorem complete_eng {v : Word} {s t : State} (h : complete v s = .next t) : t.eng = .idle := by
  rcases complete_cases h with ⟨i, -, rfl⟩ | ⟨c, op, rfl⟩ <;> rfl

/-- A completion clears no flag, and only SYNDROME's changes SYN_ZERO (R132). -/
theorem complete_flags {v : Word} {s t : State} (h : complete v s = .next t) :
    (s.status.done = true → t.status.done = true) ∧ (s.status.fault = true → t.status.fault = true) ∧
      (t.status.synZero ≠ s.status.synZero → v = encode .syndrome) := by
  rcases complete_cases h with ⟨i, rfl, rfl⟩ | ⟨c, op, rfl⟩
  · refine ⟨fun _ => rfl, fun hf => by simpa using hf, fun hz => ?_⟩
    by_contra hne
    exact hz (effectOf_synZero s fun hi => hne (congrArg encode hi))
  · exact ⟨id, fun _ => rfl, fun hz => absurd rfl hz⟩

/-- The low byte of a command's word is its OPCODE (R300, R801). -/
theorem setWidth_encode (i : Instr) : (encode i).setWidth 8 = i.opcode := by cases i <;> decide

/-- Settles O16: the two ends of `exec_cases`. -/
theorem commandEndsDoneOrFaulted : Obligations.CommandEndsDoneOrFaulted := by
  intro i s
  rcases exec_cases i s with ⟨-, hx⟩ | ⟨c, hc, hx⟩
  · exact ⟨_, hx, rfl, .inl ⟨rfl, by simp, by simp, by simp⟩⟩
  · obtain ⟨hlo, hhi⟩ := FaultCode.code_bounds hc
    exact ⟨_, hx, rfl, .inr ⟨c.code, hlo, hhi, by rw [setWidth_encode]; rfl⟩⟩

/-- Settles O17: a fault writes no buffer, and an effect writes those of its row. -/
theorem commandWritesOnlyItsBuffers : Obligations.CommandWritesOnlyItsBuffers := by
  intro i s t h
  rcases exec_cases i s with ⟨-, hx⟩ | ⟨c, -, hx⟩ <;> rw [hx] at h <;> cases h
  · exact ⟨fun b hb j hj => effectOf_entry_other s hb hj, by simp⟩
  · exact ⟨fun b _ j _ => rfl, by simp⟩

/-- Settles O18: a fault writes no result register, and an effect writes its own. -/
theorem resultRegistersChangeOnlyByTheirCommands : Obligations.ResultRegistersChangeOnlyByTheirCommands := by
  intro i s t h
  rcases exec_cases i s with ⟨-, hx⟩ | ⟨c, -, hx⟩ <;> rw [hx] at h <;> cases h
  · exact ⟨effectOf_result s, effectOf_prLen s, effectOf_outLen s, effectOf_synZero s⟩
  · exact ⟨fun _ => rfl, fun _ => rfl, fun _ => rfl, fun _ => rfl⟩

/-! ## What a step does to ENG and STATUS -/

theorem step_of_engine {s : State} {v : Word} (hw : whoMoves s = .engine) (he : s.eng = .run v) :
    step s = complete v s.tick := by simp [step, hw, engineTurn, he]

theorem step_of_host {s : State} (hw : whoMoves s = .host) : step s = .next (hostTurn s.tick) := by
  simp [step, hw]

/-- A CMD write is performed only when the engine is idle (R210). -/
theorem idle_of_not_held_cmd {s : State} {v : Word} (h : held (.write (wordAddr 0x00C) v) s = false) :
    s.eng = .idle := by
  cases he : s.eng with
  | idle => rfl
  | run w =>
    have hheld : held (.write (wordAddr 0x00C) v) s = true := by
      simp only [held, State.busy_of_run he, Access.addr]
      decide
    rw [hheld] at h
    cases h

/-- What the host's turn does to ENG, the age and STATUS: a soft reset, a STATUS write, a CMD write, or nothing. -/
theorem hostTurn_eng_status (s : State) :
    (softResetNext s ∧ (hostTurn s).eng = .idle ∧ (hostTurn s).status = .reset) ∨
    (∃ v rest, s.host = .access (.write (wordAddr 0x008) v) :: rest ∧ (hostTurn s).eng = s.eng ∧
      (hostTurn s).age = s.age ∧ (hostTurn s).status = s.status.writeOneToClear v) ∨
    (∃ v rest, s.host = .access (.write (wordAddr 0x00C) v) :: rest ∧ s.eng = .idle ∧ (hostTurn s).eng = .run v ∧
      (hostTurn s).status = s.status) ∨
    ((hostTurn s).eng = s.eng ∧ (hostTurn s).age = s.age ∧ (hostTurn s).status = s.status) := by
  rcases hostTurn_cases s with hs | ⟨op, rest, addr, -, -, hs⟩ | ⟨rest, addr, v, hh, hheld, hs⟩ <;> rw [hs]
  · exact .inr (.inr (.inr ⟨rfl, rfl, rfl⟩))
  · exact .inr (.inr (.inr ⟨rfl, rfl, rfl⟩))
  · rcases busWrite_cases addr v s with ⟨rfl, hv, hw⟩ | ⟨-, -, hw⟩ | ⟨rfl, hw⟩ | ⟨rfl, hw⟩ | ⟨r, -, hw⟩ |
      ⟨b, i, -, -, -, hw⟩ | hw <;> rw [hw]
    · exact .inl ⟨⟨v, rest, hh, hv⟩, rfl, rfl⟩
    · exact .inr (.inr (.inr ⟨rfl, rfl, rfl⟩))
    · exact .inr (.inl ⟨v, rest, hh, rfl, rfl, rfl⟩)
    · exact .inr (.inr (.inl ⟨v, rest, hh, idle_of_not_held_cmd hheld, rfl, rfl⟩))
    all_goals exact .inr (.inr (.inr ⟨rfl, rfl, rfl⟩))

/-- What a step does to ENG and STATUS: a reset, a STATUS write, a CMD write, a completion, or nothing (R130, R132). -/
theorem step_eng_status {s t : State} (h : step s = .next t) :
    (resetStep s ∧ t.eng = .idle ∧ t.status = .reset) ∨
    (∃ v rest, whoMoves s = .host ∧ s.host = .access (.write (wordAddr 0x008) v) :: rest ∧ t.eng = s.eng ∧
      t.status = s.status.writeOneToClear v) ∨
    (∃ v rest, whoMoves s = .host ∧ s.host = .access (.write (wordAddr 0x00C) v) :: rest ∧ s.eng = .idle ∧
      t.eng = .run v ∧ t.status = s.status) ∨
    (∃ v, whoMoves s = .engine ∧ s.eng = .run v ∧ complete v s.tick = .next t) ∨
    (t.eng = s.eng ∧ t.status = s.status) := by
  cases hw : whoMoves s with
  | reset =>
    simp only [step, hw] at h
    cases h
    exact .inl ⟨.inl hw, rfl, rfl⟩
  | engine =>
    cases he : s.eng with
    | idle =>
      simp only [step, hw, engineTurn, State.tick_eng, he] at h
      cases h
      exact .inr (.inr (.inr (.inr ⟨he, rfl⟩)))
    | run v =>
      rw [step_of_engine hw he] at h
      exact .inr (.inr (.inr (.inl ⟨v, rfl, rfl, h⟩)))
  | host =>
    rw [step_of_host hw] at h
    cases h
    rcases hostTurn_eng_status s.tick with ⟨hr, heng, hst⟩ | ⟨v, rest, hh, heng, -, hst⟩ |
      ⟨v, rest, hh, hidle, heng, hst⟩ | ⟨heng, -, hst⟩
    · exact .inl ⟨.inr ⟨hw, hr⟩, heng, hst⟩
    · exact .inr (.inl ⟨v, rest, rfl, hh, heng, hst⟩)
    · exact .inr (.inr (.inl ⟨v, rest, rfl, hh, hidle, heng, hst⟩))
    · exact .inr (.inr (.inr (.inr ⟨heng, hst⟩)))

/-- Settles O13: the events of `step_eng_status` that move ENG, and BUSY is bit 0 of STATUS. -/
theorem engineMovesOnlyByCmdCompletionOrReset : Obligations.EngineMovesOnlyByCmdCompletionOrReset := by
  intro s t h
  have hbusy : (busRead (wordAddr 0x008) s).getLsbD 0 = s.busy := statusWord_bit0 s
  rw [hbusy, State.busy_iff]
  refine ⟨fun he ht => ?_, fun v he ht => ?_, Iff.rfl⟩
  · rcases step_eng_status h with ⟨-, h', -⟩ | ⟨_, _, -, -, h', -⟩ | ⟨v, rest, hw, hh, -, h', -⟩ |
      ⟨_, -, h', -⟩ | ⟨h', -⟩
    · exact absurd h' ht
    · exact absurd (h'.trans he) ht
    · exact ⟨v, rest, hw, hh, h'⟩
    · exact absurd (h'.symm.trans he) nofun
    · exact absurd (h'.trans he) ht
  · rcases step_eng_status h with ⟨hr, -⟩ | ⟨_, _, -, -, h', -⟩ | ⟨_, _, -, -, h', -⟩ | ⟨_, hw, -⟩ | ⟨h', -⟩
    · exact .inr hr
    · exact absurd (h'.trans he) ht
    · exact absurd (he.symm.trans h') nofun
    · exact .inl hw
    · exact absurd (h'.trans he) ht

/-- Settles O14: in each event of `step_eng_status`, which flags it may set, clear or change. -/
theorem flagsAreSticky : Obligations.FlagsAreSticky := by
  intro s t h
  rcases step_eng_status h with ⟨hr, -, hst⟩ | ⟨v, rest, hw, hh, -, hst⟩ | ⟨_, _, -, -, -, -, hst⟩ |
    ⟨v, hw, he, hc⟩ | ⟨-, hst⟩
  · exact ⟨fun _ _ => .inl hr, fun _ _ => .inl hr, fun _ => by simp [hst, Status.reset],
      fun _ => by simp [hst, Status.reset], fun _ => .inl hr⟩
  · refine ⟨fun hs ht => .inr ⟨v, rest, hw, hh, ?_⟩, fun hs ht => .inr ⟨v, rest, hw, hh, ?_⟩, fun hs => ?_,
      fun hs => ?_, fun hz => absurd (by rw [hst]; rfl) hz⟩
    · simpa [hst, hs] using ht
    · simpa [hst, hs] using ht
    · simp [hst, hs]
    · simp [hst, hs]
  · simp +contextual [hst]
  · obtain ⟨hdone, hfault, hsyn⟩ := complete_flags hc
    exact ⟨fun hs ht => absurd (hdone hs) (by simp [ht]), fun hs ht => absurd (hfault hs) (by simp [ht]),
      fun _ _ => ⟨hw, v, he⟩, fun _ _ => ⟨hw, v, he⟩, fun hz => .inr ⟨hw, hsyn hz ▸ he⟩⟩
  · simp +contextual [hst]

/-! ## Runs -/

/-- Settles O5: each case of `step_cases` answers a next state. -/
theorem everyStepAnswersNext : Obligations.EveryStepAnswersNext := by
  intro s
  rcases step_cases s with ⟨-, hs⟩ | ⟨-, -, hs⟩ | ⟨_, i, -, -, -, hs⟩ | ⟨_, _, -, -, -, hs⟩ | ⟨-, hs⟩ <;> rw [hs]
  · exact ⟨_, rfl⟩
  · exact ⟨_, rfl⟩
  · exact exec_next i s.tick
  · exact ⟨_, rfl⟩
  · exact ⟨_, rfl⟩

theorem stepsFrom_succ_of_step {s t : State} (h : step s = .next t) (n : Nat) :
    stepsFrom (n + 1) s = stepsFrom n t := by rw [stepsFrom_succ, h]

/-- Settles O6, by induction on the length of the run. -/
theorem everyRunIsSafe : Obligations.EveryRunIsSafe := by
  intro n
  induction n with
  | zero => exact fun s => ⟨s, rfl⟩
  | succ n ih =>
    intro s
    obtain ⟨t, ht⟩ := everyStepAnswersNext s
    obtain ⟨u, hu⟩ := ih t
    exact ⟨u, (stepsFrom_succ_of_step ht n).trans hu⟩

/-- A command that still runs after a step is one step older and within its bound (R131). -/
theorem step_age_of_busy {s t : State} (h : step s = .next t) (hs : s.busy = true) (ht : t.busy = true) :
    t.age = s.age + 1 ∧ t.age < Config.maxLatency := by
  obtain ⟨v, he⟩ := (State.busy_iff s).mp hs
  have not_idle : t.eng ≠ .idle := fun hi => by simp [State.busy, hi] at ht
  cases hw : whoMoves s with
  | reset =>
    simp only [step, hw] at h
    cases h
    exact absurd rfl not_idle
  | engine =>
    rw [step_of_engine hw he] at h
    exact absurd (complete_eng h) not_idle
  | host =>
    rw [step_of_host hw] at h
    cases h
    have hbound : s.age + 1 < Config.maxLatency :=
      (whoMoves_host_of_busy hw hs).resolve_right fun hr => not_idle <| by
        rw [hostTurn_of_resetAsked (s := s.tick) hr]; rfl
    have htick : s.tick.age = s.age + 1 := by simp [hs]
    rcases hostTurn_eng_status s.tick with ⟨-, hi, -⟩ | ⟨_, _, -, -, ha, -⟩ | ⟨_, _, -, hi, -⟩ | ⟨-, ha, -⟩
    · exact absurd hi not_idle
    · exact ⟨ha.trans htick, by rwa [ha, htick]⟩
    · exact absurd (hi.symm.trans he) nofun
    · exact ⟨ha.trans htick, by rwa [ha, htick]⟩

/-- A running command ends within the steps its bound leaves it, by induction on them. -/
theorem stepsFrom_idle_within (n : Nat) : ∀ s : State, s.busy = true → s.age < Config.maxLatency →
    Config.maxLatency - s.age ≤ n →
    ∃ k t, 1 ≤ k ∧ k ≤ Config.maxLatency - s.age ∧ stepsFrom k s = .next t ∧ t.busy = false := by
  induction n with
  | zero => intro s _ hlt hle; omega
  | succ n ih =>
    intro s hs hlt hle
    obtain ⟨u, hu⟩ := everyStepAnswersNext s
    cases hb : u.busy with
    | false => exact ⟨1, u, le_refl 1, by omega, stepsFrom_succ_of_step hu 0, hb⟩
    | true =>
      obtain ⟨hage, hbound⟩ := step_age_of_busy hu hs hb
      obtain ⟨k, t, hk, hkle, hrun, hidle⟩ := ih u hb hbound (by omega)
      exact ⟨k + 1, t, by omega, by omega, (stepsFrom_succ_of_step hu k).trans hrun, hidle⟩

/-- Settles O15, by induction on the steps the bound leaves. -/
theorem commandEndsWithinMaxLatency : Obligations.CommandEndsWithinMaxLatency :=
  fun s hs hlt => stepsFrom_idle_within _ s hs hlt (le_refl _)

/-- Settles O3: the step is the completion of the word in ENG, in the state one turn later. -/
theorem stepRunsTheDecodedCommand : Obligations.StepRunsTheDecodedCommand := by
  intro s v he hw
  have htick : s.tick = { s with turns := s.turns.tail, resp := .notReady, age := s.age + 1 } := by
    simp [State.tick, State.busy_of_run he]
  rw [step_of_engine hw he]
  refine ⟨fun i hd => ?_, fun why hd => ?_⟩
  · rw [← htick]
    simp only [complete, hd]
  · simp only [complete, hd, illegalCommand, raiseFault, ← BitVec.setWidth_eq_extractLsb' (by decide : 8 ≤ 32)]
    rfl

/-! ## Registers at the port -/

/-- Each register is the word at its offset (R201). -/
theorem target_wordAddr_reg (r : Reg) : target (wordAddr r.offset) = .reg r := by cases r <;> decide

theorem busWrite_reg (r : Reg) (v : Word) (s : State) : busWrite (wordAddr r.offset) v s = writeReg r v s := by
  rw [busWrite, target_wordAddr_reg]

theorem busRead_reg (r : Reg) (s : State) : busRead (wordAddr r.offset) s = readReg r s := by
  rw [busRead, target_wordAddr_reg]

/-- Settles O7: the CMD write is not held, and starts its command. -/
theorem cmdWriteStartsTheCommand : Obligations.CmdWriteStartsTheCommand := by
  intro s v rest he hw hh
  have hidle := State.busy_of_idle he
  have hheld : held (.write (wordAddr 0x00C) v) s.tick = false := by simp [held, hidle]
  have hstart : busWrite (wordAddr 0x00C) v s.tick = startCommand v s.tick := busWrite_reg .cmd v s.tick
  refine ⟨?_, busRead_reg .cmd s⟩
  rw [step_of_host hw, hostTurn_of_write (s := s.tick) hh hheld, hstart]
  simp [startCommand, State.tick]

/-- Two concatenated fields, read as a number. -/
theorem toNat_append_eq_add {m n : Nat} (x : BitVec m) (y : BitVec n) :
    (x ++ y).toNat = 2 ^ n * x.toNat + y.toNat := by
  rw [BitVec.toNat_append, ← Nat.shiftLeft_add_eq_or_of_lt y.isLt, Nat.shiftLeft_eq, Nat.mul_comm]

/-- Settles O51: the concatenation of STATUS's fields, read as a number. -/
theorem statusReadsItsFields : Obligations.StatusReadsItsFields := by
  intro s
  have hbit : ∀ (b : Bool) (n : Nat), (if b then n else 0) = n * b.toNat := fun b n => by cases b <;> simp
  rw [show busRead (wordAddr 0x008) s = statusWord s from busRead_reg .status s]
  simp only [statusWord, toNat_append_eq_add, hbit, BitVec.toNat_ofBool, BitVec.toNat_ofNat]
  omega

/-- Settles O52: each flag is kept unless its bit is written 1. -/
theorem statusWriteClearsOnlyWrittenFlags : Obligations.StatusWriteClearsOnlyWrittenFlags := by
  intro s v
  have hflag : ∀ b c : Bool, (b && !c) = if c then false else b := by decide
  rw [show busWrite (wordAddr 0x008) v s = writeStatus v s from busWrite_reg .status v s]
  simp only [writeStatus, Status.writeOneToClear, hflag]

/-- CTRL reads the written bit 1 and 0 elsewhere (R112). -/
theorem ctrlWord_irqEn (v : Word) (s : State) : ctrlWord { s with irqEn := v.getLsbD 1 } = v &&& 2 := by
  apply BitVec.eq_of_toNat_eq
  have hand : (v &&& 2).toNat = (v.toNat.testBit 1).toNat * 2 := Nat.and_two_pow v.toNat 1
  simp only [hand, ctrlWord, toNat_append_eq_add, BitVec.toNat_ofBool, BitVec.toNat_ofNat, BitVec.getLsbD]
  omega

/-- Settles O53: the write is not the reset, and CTRL reads its one stored bit. -/
theorem ctrlWriteSetsIrqEnable : Obligations.CtrlWriteSetsIrqEnable := by
  intro s v hv
  have hw : busWrite (wordAddr 0x004) v s = { s with irqEn := v.getLsbD 1 } := by
    rw [show busWrite (wordAddr 0x004) v s = writeCtrl v s from busWrite_reg .ctrl v s]
    simp only [writeCtrl, hv, Bool.false_eq_true, if_false]
  rw [hw]
  exact ⟨rfl, (busRead_reg .ctrl _).trans (ctrlWord_irqEn v s), rfl⟩

/-! ## Operand registers -/

/-- A write to an operand register stores its field and touches the operand registers alone (R110). -/
theorem writeReg_operand {r : Reg} (h : r ∈ operandRegs) (v : Word) (s : State) :
    writeReg r v s = { s with ops := s.ops.write r v } := by
  cases r
  case id | ctrl | status | cmd | result | prLen | outLen | fmtBit => exact absurd h (by decide)
  all_goals rfl

theorem readReg_write_same {r : Reg} (h : r ∈ operandRegs) (v : Word) (s : State) :
    readReg r { s with ops := s.ops.write r v } = v &&& rwMask r := by
  cases r
  case id | ctrl | status | cmd | result | prLen | outLen | fmtBit => exact absurd h (by decide)
  all_goals exact setWidth_setWidth_eq_and v (by decide)

/-- Every other register but FMT_BIT, which FMT_PTR selects, reads as before. -/
theorem readReg_write_other {r r' : Reg} (hne : r' ≠ r) (hf : r' ≠ .fmtBit) (v : Word) (s : State) :
    readReg r' { s with ops := s.ops.write r v } = readReg r' s := by
  cases r'
  case fmtBit => exact absurd rfl hf
  case id | ctrl | status | cmd | result | prLen | outLen => rfl
  all_goals cases r <;> simp_all [readReg, OperandRegs.write]

/-- Settles O48: one field of the operand registers is stored. -/
theorem operandRegistersStoreTheirField : Obligations.OperandRegistersStoreTheirField := by
  intro s r v hr
  rw [busWrite_reg, writeReg_operand hr]
  exact ⟨readReg_write_same hr v s, fun r' hne hf => readReg_write_other hne hf v s, rfl⟩

/-! ## Entries at the port -/

/-- Each entry is the word at its offset (R141, R201). -/
theorem target_wordAddr_entry {b : Buf} {i : Nat} (hi : i < b.size) : target (wordAddr (b.offset i)) = .entry b i := by
  obtain ⟨hlt, hge, h4⟩ := Buf.offset_bounds hi
  have hoff : byteOffset (wordAddr (b.offset i)) = b.offset i := by rw [byteOffset_wordAddr hlt]; omega
  cases ht : target (wordAddr (b.offset i)) with
  | reg r =>
    have hr := target_reg_offset ht
    have : r.offset < 0x1000 := by cases r <;> decide
    omega
  | entry b' i' =>
    obtain ⟨hi', ho⟩ := target_entry_offset ht
    obtain ⟨rfl, rfl⟩ := Buf.offset_inj hi hi' (hoff.symm.trans ho)
    rfl
  | reserved =>
    unfold target at ht
    rw [hoff] at ht
    split at ht
    · cases ht
    · split at ht
      · cases ht
      · rename_i hnone
        exact absurd (Buf.covers_offset hi) (List.find?_eq_none.mp hnone b (Buf.mem_allBufs b))

theorem busWrite_entry {b : Buf} {i : Nat} (hi : i < b.size) (v : Word) (s : State) :
    busWrite (wordAddr (b.offset i)) v s = if b.hostWrites then s.setEntry b i (v.setWidth 8) else s := by
  rw [busWrite, target_wordAddr_entry hi]

theorem busRead_entry {b : Buf} {i : Nat} (hi : i < b.size) (s : State) :
    busRead (wordAddr (b.offset i)) s = (s.entry b i).setWidth 32 := by
  rw [busRead, target_wordAddr_entry hi]

/-- Settles O49: a RO register and a RO buffer ignore a write. -/
theorem readOnlyWordsIgnoreWrites : Obligations.ReadOnlyWordsIgnoreWrites := by
  refine fun s v => ⟨fun r hr => ?_, fun b i hb hi => ?_⟩
  · rw [busWrite_reg]
    simp only [readOnly, List.mem_cons, List.not_mem_nil, or_false] at hr
    rcases hr with rfl | rfl | rfl | rfl | rfl <;> rfl
  · have hro : b.hostWrites = false := by
      simp only [List.mem_cons, List.not_mem_nil, or_false] at hb
      rcases hb with rfl | rfl | rfl | rfl <;> rfl
    rw [busWrite_entry hi, hro]
    rfl

/-- The buffers the host writes lie below OBUF, so FMT_BIT does not read them (R141, R730). -/
theorem fmtBit_setEntry {b : Buf} (hb : b.hostWrites = true) {i : Nat} (hi : i < b.size) (v : Byte) (s : State) :
    fmtBit (s.setEntry b i v) = fmtBit s := by
  have hbelow : b.offset i < Buf.obuf.base := by
    have hne : b ≠ .obuf := by rintro rfl; cases hb
    cases b <;> simp [Buf.offset, Buf.base, Buf.size, Config.polyMax, Config.prSize, Config.bufSize] at * <;> omega
  have hread : ∀ j, (s.setEntry b i v).entry .obuf j = s.entry .obuf j := fun j =>
    Memory.read_write_other (by simp only [Buf.offset] at hbelow ⊢; omega) _ _
  simp [fmtBit, hread]

/-- Every other word of the window reads as before an entry was stored (R208). -/
theorem busRead_setEntry_other {b : Buf} (hb : b.hostWrites = true) {i : Nat} (hi : i < b.size) (v : Byte) (s : State)
    {addr : BitVec 14} (hne : addr ≠ wordAddr (b.offset i)) : busRead addr (s.setEntry b i v) = busRead addr s := by
  unfold busRead
  cases ht : target addr with
  | reg r =>
    cases r
    case fmtBit => simp only [readReg, fmtBit_setEntry hb hi]
    all_goals rfl
  | entry b' i' =>
    obtain ⟨hi', ho⟩ := target_entry_offset ht
    have hpos : b' ≠ b ∨ i' ≠ i := by
      by_contra! hsame
      obtain ⟨rfl, rfl⟩ := hsame
      exact hne (by rw [← ho, wordAddr_byteOffset])
    simp only [State.entry_setEntry_other s hi hi' hpos]
  | reserved => rfl

/-- Settles O50: the word's own entry, and every other word. -/
theorem bufferWriteReadsBackItsLowByte : Obligations.BufferWriteReadsBackItsLowByte := by
  intro s b i v hwf hb hi
  have hrw : b.hostWrites = true := by
    simp only [List.mem_cons, List.not_mem_nil, or_false] at hb
    rcases hb with rfl | rfl | rfl | rfl <;> rfl
  rw [busWrite_entry hi, if_pos hrw]
  refine ⟨?_, fun addr hne => busRead_setEntry_other hrw hi _ s hne⟩
  rw [busRead_entry hi, State.entry_setEntry_same hwf]
  exact setWidth_setWidth_eq_and v (by decide)

end Sys2Proof.Machine

/-! SUPPORT. Proofs about the port: which word an address reaches, what a reserved word does, and what a host access
does while a command runs and when none does. -/

namespace Sys2Proof.Machine
open Sys2Proof.Ref

/-! ## Platform addresses -/

/-- Settles O60: the offset is in the window exactly when the address is, whatever BASE is. -/
theorem platformAddressReachesTheAlignedWord : Obligations.PlatformAddressReachesTheAlignedWord := by
  refine ⟨fun off hoff => ⟨wordAddr off, ?_, byteOffset_wordAddr hoff⟩, fun a ha => if_neg ?_⟩
  · have hin : Config.base ≤ Config.base + off ∧ Config.base + off < Config.base + Config.window :=
      ⟨Nat.le_add_right _ _, Nat.add_lt_add_left hoff _⟩
    rw [platformAddr, if_pos hin, Nat.add_sub_cancel_left]
  · rw [Config.window]
    omega

/-! ## Reserved words -/

theorem Reg.offset_lt (r : Reg) : r.offset < 0x4C := by cases r <;> decide

/-- The buffers fill two ranges of the window, with a reserved one between them (R141, R201). -/
theorem Buf.offset_ranges {b : Buf} {i : Nat} (h : i < b.size) :
    (0x1000 ≤ b.offset i ∧ b.offset i < 0x2C00) ∨ (0x4000 ≤ b.offset i ∧ b.offset i < 0xC000) := by
  cases b <;> simp only [Buf.offset, Buf.base, Buf.size, Config.polyMax, Config.prSize, Config.bufSize] at * <;> omega

/-- Where neither a register nor a buffer lies, the word is reserved (R201). -/
theorem target_reserved {addr : BitVec 14}
    (h : (0x04C ≤ byteOffset addr ∧ byteOffset addr < 0x1000) ∨ (0x2C00 ≤ byteOffset addr ∧ byteOffset addr < 0x4000) ∨
      0xC000 ≤ byteOffset addr) : target addr = .reserved := by
  cases ht : target addr with
  | reg r =>
    have hr := r.offset_lt
    rw [← target_reg_offset ht] at hr
    omega
  | entry b i =>
    obtain ⟨hi, ho⟩ := target_entry_offset ht
    have hb := Buf.offset_ranges hi
    rw [← ho] at hb
    omega
  | reserved => rfl

/-- Settles O47: no register and no entry is there, so the access finds a reserved word. -/
theorem reservedWordsReadZeroAndIgnoreWrites : Obligations.ReservedWordsReadZeroAndIgnoreWrites := by
  intro s addr v h
  rw [busRead, busWrite, target_reserved h]
  exact ⟨rfl, rfl⟩

/-! ## The words of the window -/

/-- CTRL reads 2 exactly when IRQ_EN is 1 (R112). -/
theorem ctrlWord_eq_ite (s : State) : ctrlWord s = if s.irqEn then 2 else 0 := by
  unfold ctrlWord
  cases s.irqEn <;> decide

/-- FMT_BIT reads 1 exactly when FMT_PTR is in the stream and its bit there is 1 (R730). -/
theorem readReg_fmtBit (s : State) :
    readReg .fmtBit s =
      if s.ops.fmtPtr.toNat < 8 * s.res.outLen.toNat ∧
          (s.entry .obuf (s.ops.fmtPtr.toNat / 8)).getLsbD (7 - s.ops.fmtPtr.toNat % 8) = true
        then 1 else 0 := by
  simp only [readReg, fmtBit]
  by_cases hin : s.ops.fmtPtr.toNat < 8 * s.res.outLen.toNat
  · cases hbit : (s.entry .obuf (s.ops.fmtPtr.toNat / 8)).getLsbD (7 - s.ops.fmtPtr.toNat % 8) <;> simp [hin]
  · simp [hin]

/-- Settles O46: the map by `target_wordAddr_reg` and `target_wordAddr_entry`, and the reads by what is there. -/
theorem windowMapNamesRegistersAndEntries : Obligations.WindowMapNamesRegistersAndEntries :=
  ⟨target_wordAddr_reg .id, target_wordAddr_reg .ctrl, target_wordAddr_reg .status, target_wordAddr_reg .cmd,
    target_wordAddr_reg .argA, target_wordAddr_reg .argB, target_wordAddr_reg .result, target_wordAddr_reg .lenA,
    target_wordAddr_reg .lenB, target_wordAddr_reg .prLen, target_wordAddr_reg .nLen, target_wordAddr_reg .kLen,
    target_wordAddr_reg .srcOff, target_wordAddr_reg .total, target_wordAddr_reg .dataTotal,
    target_wordAddr_reg .blocks, target_wordAddr_reg .outLen, target_wordAddr_reg .fmtPtr, target_wordAddr_reg .fmtBit,
    fun _ => target_wordAddr_entry (b := .pa), fun _ => target_wordAddr_entry (b := .pb),
    fun _ => target_wordAddr_entry (b := .pr), fun _ => target_wordAddr_entry (b := .gen),
    fun _ => target_wordAddr_entry (b := .ecb), fun _ => target_wordAddr_entry (b := .syn),
    fun _ => target_wordAddr_entry (b := .dbuf), fun _ => target_wordAddr_entry (b := .obuf),
    target_wordAddr_reg, fun _ _ => target_wordAddr_entry,
    fun s => ⟨busRead_reg .id s, (busRead_reg .ctrl s).trans (ctrlWord_eq_ite s), busRead_reg .status s,
      busRead_reg .cmd s, (busRead_reg .fmtBit s).trans (readReg_fmtBit s), busRead_reg .argA s,
      busRead_reg .argB s, busRead_reg .result s, busRead_reg .lenA s, busRead_reg .lenB s,
      busRead_reg .prLen s, busRead_reg .nLen s, busRead_reg .kLen s, busRead_reg .srcOff s,
      busRead_reg .total s, busRead_reg .dataTotal s, busRead_reg .blocks s,
      busRead_reg .outLen s, busRead_reg .fmtPtr s⟩,
    fun s _ _ hi => busRead_entry hi s⟩

/-! ## Held and performed accesses -/

/-- An access is performed, not held, exactly when the engine is idle or the word is ID, CTRL or STATUS (R210). -/
theorem held_eq_false_iff (a : Access) (s : State) :
    held a s = false ↔ s.eng = .idle ∨ byteOffset a.addr ∈ [0x000, 0x004, 0x008] := by
  cases he : s.eng with
  | idle => simp [held, State.busy_of_idle he]
  | run v => simp [held, State.busy_of_run he, Reg.offset, or_iff_not_imp_left]

theorem held_of_run {a : Access} {s : State} {v : Word} (he : s.eng = .run v)
    (hout : byteOffset a.addr ∉ [0x000, 0x004, 0x008]) : held a s = true := by
  rw [← Bool.not_eq_false, held_eq_false_iff, not_or, he]
  exact ⟨nofun, hout⟩

/-- A held access stays the outstanding one, and the host's turn changes nothing (R210). -/
theorem hostTurn_of_held {s : State} {a : Access} {rest : List HostOp} (hh : s.host = .access a :: rest)
    (hheld : held a s = true) : hostTurn s = s := by
  simp [hostTurn, hh, HostOp.access', hheld]

/-- A performed read answers its word, and the host goes on (R208). -/
theorem hostTurn_of_read {s : State} {addr : BitVec 14} {rest : List HostOp}
    (hh : s.host = .access (.read addr) :: rest) (hheld : held (.read addr) s = false) :
    hostTurn s = { s with resp := .data (busRead addr s), host := rest } := by
  simp [hostTurn, hh, HostOp.access', hheld, perform, HostOp.again]

/-- Settles O9: the access is held in the state one turn later. -/
theorem runningCommandHoldsAccesses : Obligations.RunningCommandHoldsAccesses := by
  intro s v a rest he hw hh hout
  have hheld : held a s.tick = true := held_of_run he hout
  rw [step_of_host hw, hostTurn_of_held (s := s.tick) hh hheld]
  simp [State.tick, State.busy_of_run he]

/-- Settles O10: the read is not held, and it reads in the state one turn later what it reads in this one. -/
theorem readHasNoSideEffect : Obligations.ReadHasNoSideEffect := by
  intro s addr rest hw hh hperf
  have hheld : held (.read addr) s.tick = false := (held_eq_false_iff _ _).mpr hperf
  have hread : busRead addr s.tick = busRead addr s := busRead_congr addr rfl rfl rfl rfl rfl rfl
  rw [step_of_host hw, hostTurn_of_read (s := s.tick) hh hheld, hread]
  rfl

/-- Settles O11: the write is not held, and has its effect in the state one turn later. -/
theorem writeHasItsEffect : Obligations.WriteHasItsEffect := by
  intro s addr v rest hw hh hperf
  have hheld : held (.write addr v) s.tick = false := (held_eq_false_iff _ _).mpr hperf
  rw [step_of_host hw, hostTurn_of_write (s := s.tick) hh hheld]
  rfl

/-! ## What the host can change while a command runs -/

/-- A write to a word that is never held: ID ignores it, CTRL and STATUS have their own effect (R111 to R113, R210). -/
theorem busWrite_never_held {addr : BitVec 14} (h : byteOffset addr ∈ [0x000, 0x004, 0x008]) (v : Word) (s : State) :
    busWrite addr v s = s ∨ (addr = wordAddr 0x004 ∧ busWrite addr v s = writeCtrl v s) ∨
      busWrite addr v s = writeStatus v s := by
  simp only [List.mem_cons, List.not_mem_nil, or_false] at h
  have haddr := wordAddr_byteOffset addr
  rcases h with h | h | h <;> rw [h] at haddr <;> subst haddr
  · exact .inl (busWrite_reg .id v s)
  · exact .inr (.inl ⟨rfl, busWrite_reg .ctrl v s⟩)
  · exact .inr (.inr (busWrite_reg .status v s))

/-- Settles O12: the host's turn is a held access, a read, or a write to ID, CTRL or STATUS. -/
theorem hostCannotDisturbARunningCommand : Obligations.HostCannotDisturbARunningCommand := by
  intro s t v he hw hreset hstep
  rw [step_of_host hw] at hstep
  cases hstep
  rcases hostTurn_cases s.tick with hs | ⟨op, rest, addr, -, -, hs⟩ | ⟨rest, addr, w, hh, hheld, hs⟩ <;> rw [hs]
  · exact ⟨he, rfl, rfl, rfl, rfl, rfl, rfl⟩
  · exact ⟨he, rfl, rfl, rfl, rfl, rfl, rfl⟩
  · have hperf : byteOffset addr ∈ [0x000, 0x004, 0x008] :=
      ((held_eq_false_iff _ _).mp hheld).resolve_left fun hidle => absurd (hidle.symm.trans he) nofun
    rcases busWrite_never_held hperf w s.tick with hwr | ⟨rfl, hwr⟩ | hwr <;> rw [hwr]
    · exact ⟨he, rfl, rfl, rfl, rfl, rfl, rfl⟩
    · have hbit : w.getLsbD 0 = false := by
        rw [← Bool.not_eq_true]
        exact fun hw0 => hreset ⟨w, rest, hh, hw0⟩
      simp only [writeCtrl, hbit]
      exact ⟨he, rfl, rfl, rfl, rfl, rfl, rfl⟩
    · exact ⟨he, rfl, rfl, rfl, rfl, rfl, rfl⟩

end Sys2Proof.Machine

/-! SUPPORT. Proofs about the encoding: the words of rule R303 and no other are commands, where their operands are, and
what the host's `wait` does. -/

namespace Sys2Proof.Machine
open Sys2Proof.Ref

/-! ## Command words -/

/-- The opcode map answers the command of each listed OPCODE (R303). -/
theorem commandOf_opcode (i : Instr) : commandOf i.opcode = some i := by cases i <;> rfl

/-- The word of a command decodes to it (R300, R303). -/
theorem decode_encode (i : Instr) : decode (encode i) = .command i := by
  simp [decode, zeroField_encode, opcodeField_encode, commandOf_opcode]

/-- Settles O1: `eq_encode_of_decode` one way, `decode_encode` the other. -/
theorem wordIsCommandIffItIsItsEncoding : Obligations.WordIsCommandIffItIsItsEncoding :=
  fun _ i => ⟨eq_encode_of_decode, fun h => h ▸ decode_encode i⟩

/-- The words of the commands are listed in rule R303. -/
theorem encode_toNat_mem (i : Instr) :
    (encode i).toNat ∈ [0x00, 0x01, 0x02, 0x03, 0x04, 0x05, 0x10, 0x11, 0x20, 0x21, 0x30] := by
  cases i <;> decide

/-- A word that is no command completes in ILLEGAL_COMMAND, with its low byte as FAULT_OP (R304, R802). -/
theorem complete_of_illegal {v : Word} {why : IllegalWord} (hd : decode v = .illegal why) (s : State) :
    complete v s = .next (faulted s 0x01 (v.setWidth 8)) := by
  simp only [complete, hd, illegalCommand, raiseFault, ← BitVec.setWidth_eq_extractLsb' (by decide : 8 ≤ 32)]
  rfl

/-- Settles O4: an unlisted word is no command's encoding, so it decodes to none. -/
theorem unlistedWordRaisesIllegalCommand : Obligations.UnlistedWordRaisesIllegalCommand := by
  intro s v hv
  cases hd : decode v with
  | command i => exact absurd (eq_encode_of_decode hd ▸ encode_toNat_mem i) hv
  | illegal why => exact complete_of_illegal hd s

/-- Settles O2: each listed word is the encoding of its command. -/
theorem opcodeMapWordsDecode : Obligations.OpcodeMapWordsDecode :=
  ⟨decode_encode .nop, decode_encode .gfAdd, decode_encode .gfMul, decode_encode .gfInv, decode_encode .gfExp,
    decode_encode .gfLog, decode_encode .polyMul, decode_encode .rsGenpoly, decode_encode .rsEncode,
    decode_encode .syndrome, decode_encode .interleave⟩

/-! ## Operands -/

/-- Settles O19: each operand is by definition its register's field. -/
theorem operandsAreTheirFields : Obligations.OperandsAreTheirFields :=
  fun _ => ⟨rfl, rfl, rfl, rfl, rfl, rfl, rfl, rfl, rfl, rfl⟩

/-! ## The host's wait -/

/-- BUSY is bit 0 of what STATUS reads (R113). -/
theorem busRead_status_bit0 (s : State) : (busRead (wordAddr 0x008) s).getLsbD 0 = s.busy :=
  (congrArg (BitVec.getLsbD · 0) (busRead_reg .status s)).trans (statusWord_bit0 s)

/-- `wait` is never held: it reads STATUS, and stays first while the engine is busy (R210, R308). -/
theorem hostTurn_of_wait {s : State} {rest : List HostOp} (hh : s.host = .wait :: rest) :
    hostTurn s = { s with
      resp := .data (busRead (wordAddr 0x008) s), host := if s.busy then .wait :: rest else rest } := by
  have hheld : held (.read (wordAddr 0x008)) s = false := (held_eq_false_iff _ _).mpr (.inr (by decide))
  rw [hostTurn, hh]
  exact if_neg (ne_true_of_eq_false hheld)

/-- Settles O8: the read sees in the state one turn later what it sees in this one, and its bit 0 is BUSY. -/
theorem waitPollsStatusUntilIdle : Obligations.WaitPollsStatusUntilIdle := by
  intro s rest hw hh
  have hread : busRead (wordAddr 0x008) s.tick = busRead (wordAddr 0x008) s :=
    busRead_congr _ rfl rfl rfl rfl rfl rfl
  rw [step_of_host hw, hostTurn_of_wait (s := s.tick) hh, hread, busRead_status_bit0]
  rfl

end Sys2Proof.Machine

/-! SUPPORT. Proofs about the field: multiplication by a power of α is repeated doubling, so it is linear and agrees
with the carry-less product; and what the scalar commands write. -/

namespace Sys2Proof.Machine
open Sys2Proof.Ref

/-! ## The elements: 0 and the powers of α -/

/-- Every non-zero element is a power of α (R402). -/
theorem exists_gfExp_eq {a : Byte} (h : a ≠ 0) : ∃ i, i < 255 ∧ gfExp i = a := by
  obtain ⟨i, hi⟩ := exists_gfLog h
  exact ⟨i, gfExp_of_gfLog hi⟩

/-- A statement about the elements, shown for 0 and for the powers of α (R402). -/
theorem zero_or_gfExp_induction {P : Byte → Prop} (zero : P 0) (power : ∀ i, i < 255 → P (gfExp i)) (a : Byte) :
    P a := by
  by_cases h : a = 0
  · exact h ▸ zero
  · obtain ⟨i, hi, rfl⟩ := exists_gfExp_eq h
    exact power i hi

/-- Settles O29: the table facts of rule R402. -/
theorem powersOfAlphaAreTheNonzeroElements : Obligations.PowersOfAlphaAreTheNonzeroElements :=
  ⟨rfl, gfExp_255, fun _ _ => gfExp_injOn, fun _ => gfExp_ne_zero, fun _ => exists_gfExp_eq⟩

/-! ## Doubling -/

theorem gfDouble_zero : gfDouble 0 = 0 := by decide

/-- The double as a number: twice the value, reduced by `0x11D` when it reaches 256 (R401). -/
theorem gfDouble_toNat (x : Byte) :
    (gfDouble x).toNat = if 2 * x.toNat < 256 then 2 * x.toNat else (2 * x.toNat) ^^^ 0x11D := by
  have hx : x.toNat < 256 := x.isLt
  have shifted : (x.setWidth 9 <<< 1).toNat = 2 * x.toNat := by
    simp [Nat.shiftLeft_eq]
    omega
  by_cases h : 2 * x.toNat < 256
  · rw [gfDouble, if_neg (by omega), if_pos h, BitVec.toNat_setWidth, shifted, Nat.mod_eq_of_lt h]
  · have top : (2 * x.toNat ^^^ 0x11D) / 2 ^ 8 = 0 := by
      rw [Nat.xor_div_two_pow, show 2 * x.toNat / 2 ^ 8 = 1 by omega]
      rfl
    rw [gfDouble, if_pos (by omega), if_neg h, BitVec.toNat_setWidth, BitVec.toNat_xor, shifted]
    exact Nat.mod_eq_of_lt (Nat.lt_of_div_eq_zero (by decide) top)

/-- Doubling moves one power on, cyclically: α^255 = 1. -/
theorem gfDouble_gfExp {i : Nat} (h : i < 255) : gfDouble (gfExp i) = gfExp ((i + 1) % 255) := by
  rw [← gfExp_succ h]
  by_cases hi : i + 1 < 255
  · rw [Nat.mod_eq_of_lt hi]
  · rw [show i + 1 = 255 by omega, gfExp_255]
    rfl

/-- Doubling `n` times moves `n` powers on. -/
theorem iterate_gfDouble_gfExp (n : Nat) {j : Nat} (h : j < 255) :
    gfDouble^[n] (gfExp j) = gfExp ((n + j) % 255) := by
  induction n with
  | zero => rw [Nat.zero_add, Nat.mod_eq_of_lt h]; rfl
  | succ n ih =>
    rw [Function.iterate_succ_apply', ih, gfDouble_gfExp (Nat.mod_lt _ (by decide)), Nat.mod_add_mod,
      Nat.add_right_comm]

theorem iterate_gfDouble_add (n : Nat) (x y : Byte) :
    gfDouble^[n] (gfAdd x y) = gfAdd (gfDouble^[n] x) (gfDouble^[n] y) :=
  Function.Semiconj₂.iterate gfDouble_add n x y

/-! ## Multiplication -/

/-- Multiplication by α^i is `i` doublings. -/
theorem gfMul_gfExp_left {i : Nat} (hi : i < 255) (b : Byte) : gfMul (gfExp i) b = gfDouble^[i] b := by
  induction b using zero_or_gfExp_induction with
  | zero => rw [gfMul_zero_right, Function.iterate_fixed gfDouble_zero]
  | power j hj => rw [gfMul_gfExp hi hj, iterate_gfDouble_gfExp i hj]

theorem gfMul_comm (a b : Byte) : gfMul a b = gfMul b a := by
  induction a using zero_or_gfExp_induction with
  | zero => rw [gfMul_zero_left, gfMul_zero_right]
  | power i hi =>
    induction b using zero_or_gfExp_induction with
    | zero => rw [gfMul_zero_left, gfMul_zero_right]
    | power j hj => rw [gfMul_gfExp hi hj, gfMul_gfExp hj hi, Nat.add_comm]

/-- Multiplication commutes with doubling, which is multiplication by α. -/
theorem gfMul_gfDouble (a b : Byte) : gfMul a (gfDouble b) = gfDouble (gfMul a b) := by
  induction a using zero_or_gfExp_induction with
  | zero => rw [gfMul_zero_left, gfMul_zero_left, gfDouble_zero]
  | power i hi => simp only [gfMul_gfExp_left hi, ← Function.iterate_succ_apply', Function.iterate_succ_apply]

/-- Multiplication by any element commutes with doubling, so with multiplication by every power of α. -/
theorem gfMul_assoc (a b c : Byte) : gfMul (gfMul a b) c = gfMul a (gfMul b c) := by
  induction a using zero_or_gfExp_induction with
  | zero => simp only [gfMul_zero_left]
  | power i hi =>
    rw [gfMul_gfExp_left hi, gfMul_gfExp_left hi, gfMul_comm _ c, gfMul_comm b c]
    exact Function.Semiconj.iterate_right (gfMul_gfDouble c) i b

/-- Multiplication distributes over ⊕: doubling is linear, and so is doubling `i` times. -/
theorem gfMul_add (a b c : Byte) : gfMul a (gfAdd b c) = gfAdd (gfMul a b) (gfMul a c) := by
  induction a using zero_or_gfExp_induction with
  | zero => simp only [gfMul_zero_left]; rfl
  | power i hi => simp only [gfMul_gfExp_left hi, iterate_gfDouble_add]

theorem gfMul_one_left (a : Byte) : gfMul 1 a = a := gfMul_gfExp_left (i := 0) (by decide) a

theorem gfMul_one_right (a : Byte) : gfMul a 1 = a := (gfMul_comm a 1).trans (gfMul_one_left a)

/-- α^i and α^(255 − i) are inverse to each other (R407). -/
theorem gfMul_gfExp_sub {i : Nat} (h : i < 255) : gfMul (gfExp i) (gfExp (255 - i)) = 1 := by
  by_cases h0 : i = 0
  · rw [h0, gfExp_zero, gfExp_255, gfMul_one_left]
  · rw [gfMul_gfExp h (by omega), show i + (255 - i) = 255 by omega]
    rfl

theorem gfInv_gfExp {i : Nat} (h : i < 255) : gfInv (gfExp i) = some (gfExp (255 - i)) := by
  rw [gfInv, gfLog_gfExp h]
  rfl

/-- 0 has no inverse (R407). -/
theorem gfInv_zero : gfInv 0 = none := rfl

/-- The inverse of a non-zero element times the element is 1 (R407). -/
theorem exists_gfInv {a : Byte} (h : a ≠ 0) : ∃ r, gfInv a = some r ∧ gfMul a r = 1 := by
  obtain ⟨i, hi, rfl⟩ := exists_gfExp_eq h
  exact ⟨_, gfInv_gfExp hi, gfMul_gfExp_sub hi⟩

/-- Settles O27: the laws above. -/
theorem fieldLaws : Obligations.FieldLaws :=
  ⟨gfMul_comm, gfMul_assoc, gfMul_add, gfMul_one_left, gfMul_zero_left, fun _ => exists_gfInv,
    fun _ => BitVec.xor_self⟩

/-! ## The carry-less product -/

/-- One step of `shiftAndAdd`: the sum shifted and reduced, plus `a` when bit `j` of `b` is set. -/
def hornerStep (a b acc : Byte) (j : Nat) : Byte := gfAdd (gfDouble acc) (if b.getLsbD j then a else 0)

/-- The shift and reduction of the reference product is the doubling of rule R401: bit 8 is the overflow. -/
theorem shiftAndAdd_eq_foldl (a b : Byte) : shiftAndAdd a b = (List.range 8).reverse.foldl (hornerStep a b) 0 := by
  have overflow (x : Byte) : (x.setWidth 9 <<< 1).getLsbD 8 = true ↔ 256 ≤ 2 * x.toNat := by
    have hmsb : (x.setWidth 9 <<< 1).getLsbD 8 = x.msb := by simp [BitVec.msb_eq_getLsbD_last]
    rw [hmsb, BitVec.msb_eq_true_iff_two_mul_ge]
  rw [shiftAndAdd, show [7, 6, 5, 4, 3, 2, 1, 0] = (List.range 8).reverse from rfl]
  congr 1
  funext acc j
  simp only [hornerStep, gfAdd, gfDouble, overflow, Config.prim, apply_ite (BitVec.setWidth 8)]

/-- An element is the double of its bits from `j + 1` on, plus bit `j`. -/
theorem ushiftRight_eq_gfAdd (b : Byte) (j : Nat) :
    b >>> j = gfAdd (gfDouble (b >>> (j + 1))) (if b.getLsbD j then 1 else 0) := by
  have top : (b >>> (j + 1)).getLsbD 7 = false := by
    rw [BitVec.getLsbD_ushiftRight]
    exact BitVec.getLsbD_of_ge _ _ (by omega)
  rw [gfDouble_eq, top, gfAdd]
  apply BitVec.eq_of_getLsbD_eq
  intro k hk
  cases k with
  | zero => cases hb : b.getLsbD j <;> simp [hb]
  | succ k => cases b.getLsbD j <;> simp [hk, Nat.add_right_comm, Nat.add_assoc]

/-- A step from `a` times the bits above `j` gives `a` times the bits from `j` on. -/
theorem hornerStep_gfMul (a b : Byte) (j : Nat) : hornerStep a b (gfMul a (b >>> (j + 1))) j = gfMul a (b >>> j) := by
  rw [ushiftRight_eq_gfAdd b j, gfMul_add, gfMul_gfDouble, hornerStep]
  split
  · rw [gfMul_one_right]
  · rw [gfMul_zero_right]

theorem foldl_hornerStep (a b : Byte) (n : Nat) :
    (List.range n).reverse.foldl (hornerStep a b) (gfMul a (b >>> n)) = gfMul a b := by
  induction n with
  | zero => rfl
  | succ n ih => rw [List.range_succ, List.reverse_concat, List.foldl_cons, hornerStep_gfMul, ih]

/-- Settles O28, by Horner's rule over the bits of `b`. -/
theorem mulIsCarrylessProduct : Obligations.MulIsCarrylessProduct := by
  intro a b
  have start : gfMul a (b >>> 8) = 0 := by rw [BitVec.ushiftRight_eq_zero (le_refl 8)]; exact gfMul_zero_right a
  rw [shiftAndAdd_eq_foldl, ← start, foldl_hornerStep]

/-! ## The scalar commands -/

/-- A command that only writes RESULT completes so (R117, R131). -/
theorem withDone_setResult (s : State) (r : Byte) :
    (s.setResult r).withDone = { completed s with res := { s.res with result := r } } := rfl

/-- LOG_OF_ZERO, recorded (R800, R801). -/
theorem withFault_logOfZero (s : State) (op : BitVec 8) : s.withFault .logOfZero op = faulted s 0x02 op := rfl

/-- Settles O21: NOP's effect is none. -/
theorem nopOnlySetsDone : Obligations.NopOnlySetsDone := ⟨rfl, fun _ => exec_of_passes (i := .nop) trivial⟩

/-- Settles O22: ⊕ is XOR (R405). -/
theorem gfAddWritesTheXor : Obligations.GfAddWritesTheXor := ⟨rfl, fun _ => exec_of_passes (i := .gfAdd) trivial⟩

/-- GF_MUL writes the product (R412). -/
theorem exec_gfMul (s : State) :
    exec .gfMul s = .next { completed s with res := { s.res with result := gfMul s.ops.argA s.ops.argB } } :=
  exec_of_passes (i := .gfMul) trivial

/-- Settles O23: a zero operand, or two powers of α. -/
theorem gfMulWritesTheProduct : Obligations.GfMulWritesTheProduct := by
  refine ⟨rfl, fun s => ⟨fun h0 => ?_, fun ha hb => ?_⟩⟩
  · rw [exec_gfMul, gfMul, if_pos h0]
  · obtain ⟨i, hi, hia⟩ := exists_gfExp_eq ha
    obtain ⟨j, hj, hjb⟩ := exists_gfExp_eq hb
    refine ⟨i, j, hi, hj, hia, hjb, ?_⟩
    rw [exec_gfMul, ← hia, ← hjb, gfMul_gfExp hi hj]

/-- Settles O24: a power of α, or the fault. -/
theorem gfInvWritesTheInverse : Obligations.GfInvWritesTheInverse := by
  refine ⟨rfl, fun s => ⟨fun ha => ?_, fun ha => ?_⟩⟩
  · obtain ⟨i, hi, hia⟩ := exists_gfExp_eq ha
    have hinv : gfInv (opA s) = some (gfExp (255 - i)) := by rw [opA, ← hia, gfInv_gfExp hi]
    exact ⟨i, hi, hia, hia ▸ gfMul_gfExp_sub hi, by simp only [exec, execGfInv, hinv, retire, withDone_setResult]⟩
  · have hinv : gfInv (opA s) = none := (congrArg gfInv ha).trans gfInv_zero
    simp only [exec, execGfInv, hinv, raiseFault, withFault_logOfZero]

/-- Settles O25: each entry of EXP doubles the one before. -/
theorem gfExpWritesTheTableEntry : Obligations.GfExpWritesTheTableEntry :=
  ⟨rfl, fun _ => exec_of_passes (i := .gfExp) trivial, gfExp_zero, fun _ hi => by rw [gfExp_succ hi, gfDouble_toNat]⟩

/-- Settles O26: a power of α, or the fault. -/
theorem gfLogWritesTheExponent : Obligations.GfLogWritesTheExponent := by
  refine ⟨rfl, fun s => ⟨fun ha => ?_, fun ha => ?_⟩⟩
  · obtain ⟨i, hlog⟩ : ∃ i, gfLog (opA s) = some i := exists_gfLog ha
    obtain ⟨hi, hia⟩ := gfExp_of_gfLog hlog
    exact ⟨i, hi, hia, fun j hj hja => gfExp_injOn hj hi (hja.trans hia.symm),
      by simp only [exec, execGfLog, hlog, retire, withDone_setResult]⟩
  · have hlog : gfLog (opA s) = none := (congrArg gfLog ha).trans gfLog_zero
    simp only [exec, execGfLog, hlog, raiseFault, withFault_logOfZero]

end Sys2Proof.Machine

/-! SUPPORT. Proofs about polynomials: the product array row by row, its value at a point, the generator polynomials,
and what POLY_MUL and RS_GENPOLY write. -/

namespace Sys2Proof.Machine
open Sys2Proof.Ref

/-! ## Coefficients of a product -/

theorem gfAdd_zero_left (a : Byte) : gfAdd 0 a = a := BitVec.zero_xor

theorem gfAdd_zero_right (a : Byte) : gfAdd a 0 = a := BitVec.xor_zero

theorem gfSum_map_eq_zero {f : Nat → Byte} (h : ∀ j, f j = 0) {js : List Nat} : gfSum (js.map f) = 0 := by
  refine gfSum_zero _ fun x hx => ?_
  obtain ⟨j, -, rfl⟩ := List.mem_map.mp hx
  exact h j

theorem gfSum_map_range_succ (f : Nat → Byte) (n : Nat) :
    gfSum ((List.range (n + 1)).map f) = gfAdd (f 0) (gfSum ((List.range n).map fun j => f (j + 1))) := by
  rw [List.range_succ_eq_map, List.map_cons, List.map_map, gfSum_cons]
  rfl

/-- A coefficient as a sum over every index of the first factor, whatever the lengths (R501). -/
theorem polyMulCoeff_eq_sum (A B : List Byte) (i : Nat) :
    polyMulCoeff A B i = gfSum ((List.range A.length).map fun j =>
      if j ≤ i ∧ i - j < B.length then gfMul (A.getD j 0) (B.getD (i - j) 0) else 0) := by
  rcases A with _ | ⟨a, A⟩
  · exact gfSum_map_eq_zero fun j => gfMul_zero_left _
  rcases B with _ | ⟨b, B⟩
  · rw [gfSum_map_eq_zero fun j => if_neg fun h => Nat.not_lt_zero _ h.2]
    exact gfSum_map_eq_zero fun j => gfMul_zero_right _
  · exact polyMulCoeff_eq_full _ _ i (by simp) (by simp)

/-- The first term of the sum: beyond the second factor its entry reads 0. -/
theorem leadingTerm_eq (a : Byte) (B : List Byte) (i : Nat) :
    (if 0 ≤ i ∧ i < B.length then gfMul a (B.getD i 0) else 0) = gfMul a (B.getD i 0) := by
  split
  · rfl
  · rw [List.getD_eq_default _ _ (by omega), gfMul_zero_right]

/-- Coefficient 0: the product of the leading coefficients. -/
theorem polyMulCoeff_cons_zero (a : Byte) (A B : List Byte) : polyMulCoeff (a :: A) B 0 = gfMul a (B.getD 0 0) := by
  rw [polyMulCoeff_eq_sum, List.length_cons, gfSum_map_range_succ, gfSum_map_eq_zero fun j => if_neg (by omega),
    gfAdd_zero_right]
  exact leadingTerm_eq a B 0

/-- Coefficient `i + 1`: the term of the first factor's leading coefficient, and the product without it. -/
theorem polyMulCoeff_cons_succ (a : Byte) (A B : List Byte) (i : Nat) :
    polyMulCoeff (a :: A) B (i + 1) = gfAdd (gfMul a (B.getD (i + 1) 0)) (polyMulCoeff A B i) := by
  rw [polyMulCoeff_eq_sum, List.length_cons, gfSum_map_range_succ, polyMulCoeff_eq_sum A]
  simp only [Nat.add_le_add_iff_right, Nat.add_sub_add_right, List.getD_cons_succ]
  exact congrArg (gfAdd · _) (leadingTerm_eq a B (i + 1))

/-- With no coefficient of the first factor, every coefficient of the product is 0. -/
theorem polyMul_nil (B : List Byte) : polyMul [] B = List.replicate (B.length - 1) 0 := by
  refine List.eq_replicate_iff.mpr ⟨by simp, fun c hc => ?_⟩
  obtain ⟨i, -, rfl⟩ := List.mem_map.mp hc
  exact polyMulCoeff_eq_sum [] B i

theorem length_row (a : Byte) (B : List Byte) (n : Nat) :
    (B.map (gfMul a) ++ List.replicate n 0).length = B.length + n := by
  rw [List.length_append, List.length_map, List.length_replicate]

/-- One row of the product: `a` times the second factor, with 0 after it. -/
theorem getD_row (a : Byte) (B : List Byte) (n i : Nat) :
    (B.map (gfMul a) ++ List.replicate n 0).getD i 0 = gfMul a (B.getD i 0) := by
  by_cases hi : i < B.length
  · simp [List.getD_eq_getElem?_getD, List.getElem?_append, hi]
  · rw [List.getD_append_right _ _ _ _ (by simpa using hi), List.getD_eq_getElem?_getD,
      List.getElem?_getD_replicate_default_eq, List.getD_eq_default B _ (by omega), gfMul_zero_right]

/-- Schoolbook multiplication: the row of the leading coefficient, and under it the product without it (R501). -/
theorem polyMul_cons (a : Byte) (A : List Byte) {B : List Byte} (hB : B ≠ []) :
    polyMul (a :: A) B = addArrays (B.map (gfMul a) ++ List.replicate A.length 0) (0 :: polyMul A B) := by
  have hpos : 0 < B.length := List.length_pos_iff.mpr hB
  refine List.ext_getElem ?_ fun i hi _ => ?_
  · rw [addArrays, List.length_zipWith, length_row, List.length_cons, polyMul_length, polyMul_length, List.length_cons]
    omega
  · rw [polyMul_length, List.length_cons] at hi
    simp only [addArrays, List.getElem_zipWith]
    rw [← List.getD_eq_getElem (d := 0), ← List.getD_eq_getElem (d := 0), ← List.getD_eq_getElem (d := 0),
      getD_row, polyMul_getD _ _ hi]
    cases i with
    | zero => rw [polyMulCoeff_cons_zero, List.getD_cons_zero, gfAdd_zero_right]
    | succ i => rw [polyMulCoeff_cons_succ, List.getD_cons_succ, polyMul_getD _ _ (by omega)]

/-- The leading coefficient of a product is the product of the leading coefficients. -/
theorem polyMul_head? (a b : Byte) (A B : List Byte) : (polyMul (a :: A) (b :: B)).head? = some (gfMul a b) := by
  rw [polyMul_cons a A (by simp)]
  simp [addArrays, gfAdd]

/-! ## The value at a point -/

/-- Horner's rule from an accumulated value on (R500). -/
def horner (x acc : Byte) (p : List Byte) : Byte := p.foldl (fun acc c => gfAdd (gfMul acc x) c) acc

theorem evalAt_eq_horner (x : Byte) (p : List Byte) : evalAt x p = horner x 0 p := rfl

theorem horner_cons (x acc c : Byte) (p : List Byte) :
    horner x acc (c :: p) = horner x (gfAdd (gfMul acc x) c) p := rfl

theorem evalAt_append (x : Byte) (p q : List Byte) : evalAt x (p ++ q) = horner x (evalAt x p) q :=
  List.foldl_append

theorem evalAt_cons (x c : Byte) (p : List Byte) : evalAt x (c :: p) = horner x c p := by
  rw [evalAt_eq_horner, horner_cons, gfMul_zero_left, gfAdd_zero_left]

theorem gfAdd_mul (a b c : Byte) : gfMul (gfAdd a b) c = gfAdd (gfMul a c) (gfMul b c) := by
  rw [gfMul_comm, gfMul_add, gfMul_comm c a, gfMul_comm c b]

theorem gfAdd_add_add_comm (a b c d : Byte) : gfAdd (gfAdd a b) (gfAdd c d) = gfAdd (gfAdd a c) (gfAdd b d) := by
  simp only [gfAdd]
  ac_rfl

/-- The value is additive in the array. -/
theorem horner_addArrays (x : Byte) : ∀ (a b : Byte) (p q : List Byte), p.length = q.length →
    horner x (gfAdd a b) (addArrays p q) = gfAdd (horner x a p) (horner x b q)
  | _, _, [], [], _ => rfl
  | a, b, c :: p, d :: q, h => by
    have ih := horner_addArrays x (gfAdd (gfMul a x) c) (gfAdd (gfMul b x) d) p q (Nat.succ.inj h)
    rw [horner_cons, horner_cons, ← ih, gfAdd_add_add_comm, ← gfAdd_mul]
    rfl

theorem evalAt_addArrays (x : Byte) {p q : List Byte} (h : p.length = q.length) :
    evalAt x (addArrays p q) = gfAdd (evalAt x p) (evalAt x q) := horner_addArrays x 0 0 p q h

/-- The value is homogeneous in the array. -/
theorem horner_map_gfMul (x c : Byte) (p : List Byte) :
    ∀ a, horner x (gfMul c a) (p.map (gfMul c)) = gfMul c (horner x a p) := by
  induction p with
  | nil => exact fun _ => rfl
  | cons d p ih => exact fun a => by rw [List.map_cons, horner_cons, horner_cons, ← ih, gfMul_assoc, gfMul_add]

theorem evalAt_map_gfMul (x c : Byte) (p : List Byte) : evalAt x (p.map (gfMul c)) = gfMul c (evalAt x p) := by
  rw [evalAt_eq_horner, evalAt_eq_horner, ← horner_map_gfMul, gfMul_zero_right]

/-- A factor of the accumulated value stays a factor when only 0 coefficients follow. -/
theorem horner_replicate_zero (x c a : Byte) (n : Nat) :
    horner x (gfMul c a) (List.replicate n 0) = gfMul c (horner x a (List.replicate n 0)) := by
  rw [← horner_map_gfMul, List.map_replicate, gfMul_zero_right]

theorem addArrays_replicate_zero (p : List Byte) : addArrays (List.replicate p.length 0) p = p := by
  induction p with
  | nil => rfl
  | cons c p ih => exact congrArg₂ List.cons (gfAdd_zero_left c) ih

/-- The accumulated value and the array add their shares: the value is additive. -/
theorem horner_eq_add (x a : Byte) (p : List Byte) :
    horner x a p = gfAdd (horner x a (List.replicate p.length 0)) (evalAt x p) := by
  calc horner x a p = horner x (gfAdd a 0) (addArrays (List.replicate p.length 0) p) := by
        rw [addArrays_replicate_zero, gfAdd_zero_right]
    _ = _ := horner_addArrays x a 0 _ _ (List.length_replicate ..)

/-- The value of a product is the product of the values, row by row (R501). -/
theorem evalAt_polyMul (x : Byte) (A : List Byte) {B : List Byte} (hB : B ≠ []) :
    evalAt x (polyMul A B) = gfMul (evalAt x A) (evalAt x B) := by
  have hpos : 0 < B.length := List.length_pos_iff.mpr hB
  induction A with
  | nil =>
    calc evalAt x (polyMul [] B) = horner x (gfMul 0 0) (List.replicate (B.length - 1) 0) := by
          rw [polyMul_nil]; rfl
      _ = gfMul 0 (evalAt x B) := by rw [horner_replicate_zero, gfMul_zero_left, gfMul_zero_left]
  | cons a A ih =>
    have hlen : (B.map (gfMul a) ++ List.replicate A.length 0).length = (0 :: polyMul A B).length := by
      rw [length_row, List.length_cons, polyMul_length]
      omega
    have rest : evalAt x (0 :: polyMul A B) = evalAt x (polyMul A B) := evalAt_cons x 0 _
    rw [polyMul_cons a A hB, evalAt_addArrays x hlen, rest, ih, evalAt_append, evalAt_map_gfMul,
      evalAt_cons, horner_eq_add x a A, gfAdd_mul, gfMul_comm a, horner_replicate_zero, gfMul_comm (evalAt x B)]

/-- Settles O32, by induction on the rows. -/
theorem productArrayIsThePolynomialProduct : Obligations.ProductArrayIsThePolynomialProduct :=
  fun A B x _ hB => ⟨polyMul_length A B, evalAt_polyMul x A hB⟩

/-! ## Generator polynomials -/

/-- g_k is monic (R502). -/
theorem genPoly_head? (k : Nat) : (genPoly k).head? = some 1 := by
  induction k with
  | zero => rfl
  | succ k ih =>
    obtain ⟨p, hp⟩ := List.head?_eq_some_iff.mp ih
    rw [genPoly_succ, hp, polyMul_head?, gfMul_one_right]

/-- The factor [1, e] is x ⊕ e. -/
theorem evalAt_factor (x e : Byte) : evalAt x [1, e] = gfAdd x e := by
  rw [evalAt_cons, horner_cons, gfMul_one_left]
  rfl

theorem foldr_gfMul_concat (xs : List Byte) (y : Byte) :
    (xs ++ [y]).foldr gfMul 1 = gfMul (xs.foldr gfMul 1) y := by
  induction xs with
  | nil => exact gfMul_comm y 1
  | cons x xs ih => rw [List.cons_append, List.foldr_cons, ih, List.foldr_cons, gfMul_assoc]

/-- A product with a factor 0 is 0. -/
theorem foldr_gfMul_eq_zero {xs : List Byte} (h : 0 ∈ xs) : xs.foldr gfMul 1 = 0 := by
  induction h with
  | head xs => exact gfMul_zero_left _
  | tail x _ ih => rw [List.foldr_cons, ih, gfMul_zero_right]

/-- The value of g_k is the product of the values of its factors (R502). -/
theorem evalAt_genPoly (x : Byte) (k : Nat) :
    evalAt x (genPoly k) = ((List.range k).map fun i => gfAdd x (gfExp i)).foldr gfMul 1 := by
  induction k with
  | zero => exact evalAt_cons x 1 []
  | succ k ih =>
    rw [genPoly_succ, evalAt_polyMul x _ (by simp), ih, evalAt_factor, List.range_succ, List.map_append,
      List.map_singleton, foldr_gfMul_concat]

/-- α^i is a root of g_k for every i < k (R502). -/
theorem evalAt_gfExp_genPoly {i k : Nat} (h : i < k) : evalAt (gfExp i) (genPoly k) = 0 := by
  rw [evalAt_genPoly]
  exact foldr_gfMul_eq_zero (List.mem_map.mpr ⟨i, List.mem_range.mpr h, BitVec.xor_self⟩)

/-- Settles O34: the facts above. -/
theorem generatorHasRootsAtPowersOfAlpha : Obligations.GeneratorHasRootsAtPowersOfAlpha :=
  fun k _ => ⟨genPoly_length k, genPoly_head? k, genPoly_succ k, fun x => evalAt_genPoly x k,
    fun _ => evalAt_gfExp_genPoly⟩

/-- The entries of g_k, and the zeroes the buffer holds after them (R520). -/
theorem genPoly_getD_eq_ite (k j : Nat) : (genPoly k).getD j 0 = if j ≤ k then (genPoly k).getD j 0 else 0 := by
  split
  · rfl
  · exact List.getD_eq_default _ _ (by simp; omega)

/-! ## POLY_MUL and RS_GENPOLY -/

/-- Replacing a buffer changes nothing outside its words. -/
theorem sameOutside_setBuf (s : State) (b : Buf) (vs : List Byte) :
    sameOutside s.mem (s.setBuf b vs).mem b.base b.size :=
  fun _ h => Memory.read_fill_outside _ _ _ _ h

/-- Checks that all name one fault report that fault when one of them fails. -/
theorem firstFailing_eq_some {cs : List (Bool × FaultCode)} {c : FaultCode} (hcs : ∀ p ∈ cs, p.2 = c)
    (h : firstFailing cs ≠ none) : firstFailing cs = some c := by
  obtain ⟨d, hd⟩ := Option.ne_none_iff_exists'.mp h
  rw [hd, ← hcs _ (firstFailing_mem hd)]

/-- BAD_LENGTH, recorded (R800, R801). -/
theorem withFault_badLength (s : State) (op : BitVec 8) : s.withFault .badLength op = faulted s 0x04 op := rfl

/-- A coefficient of the product of PA's and PB's polynomials, and the zeroes PR holds after it (R510). -/
theorem polyMul_polyA_polyB_getD (s : State) (i : Nat) :
    (polyMul (polyA s) (polyB s)).getD i 0 =
      if i < opLa s + opLb s - 1 then
        gfSum ((List.range (opLa s)).map fun j =>
          if j ≤ i ∧ i - j < opLb s then gfMul (s.entry .pa j) (s.entry .pb (i - j)) else 0)
      else 0 := by
  split
  · rw [polyMul_getD _ _ (by simpa), polyMulCoeff_eq_sum, polyA_length, polyB_length]
    congr 1
    refine List.map_congr_left fun j hj => ?_
    split
    · rename_i hij
      rw [polyA, polyB, State.entries_getD _ _ _ _ _ (List.mem_range.mp hj), State.entries_getD _ _ _ _ _ hij.2,
        Nat.zero_add, Nat.zero_add]
    · rfl
  · exact List.getD_eq_default _ _ (by simp; omega)

/-- Settles O30: PR's entries are the coefficients of the product. -/
theorem polyMulWritesTheProduct : Obligations.PolyMulWritesTheProduct := by
  intro s ha ha' hb hb'
  refine ⟨_, exec_of_passes ((polyMul_passes s).mpr ⟨⟨ha, ha'⟩, hb, hb'⟩), rfl, ?_, fun i hi => ?_,
    sameOutside_setBuf s .pr _⟩
  · simp only [State.withDone_res, effectOf, BitVec.toNat_ofNat]
    omega
  · calc _ = (polyMul (polyA s) (polyB s)).getD i 0 := State.entry_setBuf_same s .pr _ hi
      _ = _ := polyMul_polyA_polyB_getD s i

/-- Settles O31: both checks name BAD_LENGTH. -/
theorem polyMulRefusesBadLengths : Obligations.PolyMulRefusesBadLengths := by
  intro s h
  have hp : ¬ passes .polyMul s := by rw [polyMul_passes]; omega
  rw [exec, execPolyMul, runChecked_of_some (firstFailing_eq_some (c := .badLength) (by simp [polyMulChecks]) hp),
    withFault_badLength]

/-- Settles O33: g_k and its tail, or the one check's fault. -/
theorem rsGenpolyWritesTheGenerator : Obligations.RsGenpolyWritesTheGenerator := by
  refine ⟨rfl, fun s => ⟨fun hk => ?_, fun hk => ?_⟩⟩
  · refine ⟨_, exec_of_passes ((rsGenpoly_passes s).mpr hk), rfl, fun j hj => ?_, sameOutside_setBuf s .gen _⟩
    exact (State.entry_setBuf_same s .gen _ hj).trans (genPoly_getD_eq_ite _ j)
  · have hp : ¬ passes .rsGenpoly s := by rw [rsGenpoly_passes]; omega
    rw [exec, execRsGenpoly, runChecked_of_some (firstFailing_eq_some (c := .badLength) (by simp [genPolyChecks]) hp),
      withFault_badLength]

/-! ## What GEN holds -/

/-- The commands that write GEN write g_k to it, with k ≥ 1 when they pass their checks (R520, R605). -/
theorem effectOf_entry_gen {i : Instr} (s : State) (hw : .gen ∈ writes i) {j : Nat} (hj : j < 256) :
    (effectOf i s).entry .gen j = (genPoly (opK s)).getD j 0 := by
  have written : (s.setBuf .gen (genPoly (opK s))).entry .gen j = (genPoly (opK s)).getD j 0 :=
    State.entry_setBuf_same s .gen _ hj
  cases i
  case rsGenpoly => exact written
  case rsEncode => exact (State.entry_setBuf_other _ (by decide) _ hj).trans written
  all_goals exact absurd hw (by decide)

theorem one_le_opK_of_passes {i : Instr} {s : State} (hw : .gen ∈ writes i) (hp : passes i s) : 1 ≤ opK s := by
  cases i
  case rsGenpoly => exact (rsGenpoly_passes s).mp hp
  case rsEncode => exact ((rs_passes s).mp hp).2.1
  all_goals exact absurd hw (by decide)

theorem genHoldsGenerator_congr {s t : State} (h : genHoldsGenerator s)
    (hgen : ∀ j, j < 256 → t.entry .gen j = s.entry .gen j) : genHoldsGenerator t := by
  obtain h0 | ⟨k, hk, hk', h⟩ := h
  · exact .inl fun j hj => (hgen j hj).trans (h0 j hj)
  · exact .inr ⟨k, hk, hk', fun j hj => (hgen j hj).trans (h j hj)⟩

/-- GEN is zeroed by a reset (R160). -/
theorem genHoldsGenerator_of_mem_nil {s : State} (h : s.mem = []) : genHoldsGenerator s :=
  .inl fun j _ => by simp [State.entry, h]

theorem genHoldsGenerator_effectOf {i : Instr} {s : State} (h : genHoldsGenerator s) (hp : passes i s) :
    genHoldsGenerator (effectOf i s) := by
  by_cases hw : Buf.gen ∈ writes i
  · exact .inr ⟨opK s, one_le_opK_of_passes hw hp, Nat.le_of_lt_succ s.ops.kLen.isLt,
      fun j hj => effectOf_entry_gen s hw hj⟩
  · exact genHoldsGenerator_congr h fun j hj => effectOf_entry_other s hw hj

theorem genHoldsGenerator_exec {i : Instr} {s t : State} (h : genHoldsGenerator s) (he : exec i s = .next t) :
    genHoldsGenerator t := by
  rcases exec_cases i s with ⟨hp, hx⟩ | ⟨c, -, hx⟩ <;> rw [hx] at he <;> cases he
  · exact genHoldsGenerator_effectOf h hp
  · exact h

/-- The host writes no entry of GEN (R141). -/
theorem genHoldsGenerator_busWrite {s : State} (h : genHoldsGenerator s) (addr : BitVec 14) (v : Word) :
    genHoldsGenerator (busWrite addr v s) := by
  rcases busWrite_cases addr v s with ⟨-, -, hw⟩ | ⟨-, -, hw⟩ | ⟨-, hw⟩ | ⟨-, hw⟩ | ⟨r, -, hw⟩ |
    ⟨b, i, hb, hi, -, hw⟩ | hw <;> rw [hw]
  · exact genHoldsGenerator_of_mem_nil rfl
  · exact h
  · exact h
  · exact h
  · exact h
  · have hne : Buf.gen ≠ b := by rintro rfl; cases hb
    exact genHoldsGenerator_congr h fun j hj => State.entry_setEntry_other s hi hj (.inl hne) _
  · exact h

theorem genHoldsGenerator_hostTurn {s : State} (h : genHoldsGenerator s) : genHoldsGenerator (hostTurn s) := by
  rcases hostTurn_cases s with hs | ⟨op, rest, addr, -, -, hs⟩ | ⟨rest, addr, v, -, -, hs⟩ <;> rw [hs]
  · exact h
  · exact h
  · exact genHoldsGenerator_busWrite h addr v

/-- Settles O59, by who moves: a reset, an idle turn, a completion, an illegal word, or the host. -/
theorem genAlwaysHoldsAGenerator : Obligations.GenAlwaysHoldsAGenerator := by
  refine ⟨genHoldsGenerator_of_mem_nil rfl, fun s t h hstep => ?_⟩
  have htick : genHoldsGenerator s.tick := h
  rcases step_cases s with ⟨-, hs⟩ | ⟨-, -, hs⟩ | ⟨v, i, -, -, -, hs⟩ | ⟨v, why, -, -, -, hs⟩ | ⟨-, hs⟩ <;>
    rw [hs] at hstep
  · cases hstep
    exact genHoldsGenerator_of_mem_nil rfl
  · cases hstep
    exact htick
  · exact genHoldsGenerator_exec htick hstep
  · cases hstep
    exact htick
  · cases hstep
    exact genHoldsGenerator_hostTurn htick

end Sys2Proof.Machine

/-! SUPPORT. Proofs about the Reed-Solomon commands: the shift register as division by g_k, the syndromes as values at
the powers of α, and what RS_ENCODE and SYNDROME check and write. -/

namespace Sys2Proof.Machine
open Sys2Proof.Ref

/-! ## Sums of arrays -/

theorem gfAdd_self_left (a b : Byte) : gfAdd a (gfAdd a b) = b := by
  rw [gfAdd, gfAdd, ← BitVec.xor_assoc, BitVec.xor_self, BitVec.zero_xor]

theorem addArrays_comm (p q : List Byte) : addArrays p q = addArrays q p := List.zipWith_comm_of_comm BitVec.xor_comm

theorem addArrays_assoc : ∀ p q r : List Byte, addArrays (addArrays p q) r = addArrays p (addArrays q r)
  | [], _, _ => rfl
  | _ :: _, [], _ => rfl
  | _ :: _, _ :: _, [] => rfl
  | a :: p, b :: q, c :: r => congrArg₂ List.cons (BitVec.xor_assoc a b c) (addArrays_assoc p q r)

/-- Every array is its own negative: adding it twice changes nothing. -/
theorem addArrays_self_left : ∀ {p q : List Byte}, p.length = q.length → addArrays p (addArrays p q) = q
  | [], [], _ => rfl
  | a :: _, b :: _, h => congrArg₂ List.cons (gfAdd_self_left a b) (addArrays_self_left (Nat.succ.inj h))

/-- An array moves to the other side of an equation. -/
theorem addArrays_eq_iff {p q r : List Byte} (hq : p.length = q.length) (hr : p.length = r.length) :
    addArrays p q = r ↔ q = addArrays p r := by
  constructor
  · rintro rfl
    exact (addArrays_self_left hq).symm
  · rintro rfl
    exact addArrays_self_left hr

theorem addArrays_append {p q p' q' : List Byte} (h : p.length = q.length) :
    addArrays (p ++ p') (q ++ q') = addArrays p q ++ addArrays p' q' := List.zipWith_append h

theorem addArrays_replicate_zero_right (p : List Byte) : addArrays p (List.replicate p.length 0) = p :=
  (addArrays_comm _ _).trans (addArrays_replicate_zero p)

/-- d(x) · x^k ⊕ r(x) is the codeword: the data, then the k bytes of r (R600). -/
theorem addArrays_shift (d r : List Byte) :
    addArrays (d ++ List.replicate r.length 0) (List.replicate d.length 0 ++ r) = d ++ r := by
  rw [addArrays_append (by simp), addArrays_replicate_zero_right, addArrays_replicate_zero]

/-! ## The shift register divides by g_k -/

/-- The step of the shift register: the register moved on, plus the feedback times g_k without its leading 1 (R602). -/
theorem ecStep_cons (g₀ : Byte) (g : List Byte) (r₀ : Byte) (r : List Byte) (x : Byte) :
    ecStep (g₀ :: g) (r₀ :: r) x = addArrays (g.map (gfMul (gfAdd r₀ x))) (r ++ [0]) := by
  rw [addArrays_comm, addArrays, List.zipWith_map_right, gfAdd, BitVec.xor_comm]
  rfl

/-- One step of long division: the quotient's next coefficient is the feedback, and what is left to divide is the
codeword's rest with the register after the step added in front. -/
theorem division_step {g r c q : List Byte} {r₀ x q₀ : Byte} {m : Nat} (hr : r.length + 1 = g.length)
    (hc : c.length = g.length + m) (hq : q.length = m) :
    addArrays (r₀ :: r ++ List.replicate (m + 1) 0) (x :: c) = polyMul (q₀ :: q) (1 :: g) ↔
      q₀ = gfAdd r₀ x ∧
        addArrays (ecStep (1 :: g) (r₀ :: r) x ++ List.replicate m 0) c = polyMul q (1 :: g) := by
  have product : polyMul (q₀ :: q) (1 :: g) =
      q₀ :: addArrays (g.map (gfMul q₀) ++ List.replicate m 0) (polyMul q (1 :: g)) := by
    rw [polyMul_cons q₀ q (by simp), hq, List.map_cons, gfMul_one_right]
    exact congrArg (List.cons · _) (gfAdd_zero_right q₀)
  have dividend : addArrays (r₀ :: r ++ List.replicate (m + 1) 0) (x :: c) =
      gfAdd r₀ x :: addArrays (r ++ [0] ++ List.replicate m 0) c := by
    rw [List.append_assoc]
    rfl
  have shifted : addArrays (ecStep (1 :: g) (r₀ :: r) x ++ List.replicate m 0) c =
      addArrays (g.map (gfMul (gfAdd r₀ x)) ++ List.replicate m 0)
        (addArrays (r ++ [0] ++ List.replicate m 0) c) := by
    have zeros : addArrays (List.replicate m 0) (List.replicate m 0) = List.replicate m 0 := by
      simpa using addArrays_replicate_zero (List.replicate m 0)
    rw [← addArrays_assoc, addArrays_append (by simpa using hr.symm), zeros, ecStep_cons]
  rw [product, dividend, shifted, List.cons.injEq, eq_comm (a := q₀)]
  refine and_congr_right fun hhead => ?_
  rw [← hhead]
  exact (addArrays_eq_iff (by simp [addArrays, hc]; omega) (by simp [hq]; omega)).symm

/-- The shift register, from any contents `r` on, leaves the one remainder of division by a monic array (R601, R602). -/
theorem ecFold_eq_iff {g : List Byte} (hg : g ≠ []) (d : List Byte) :
    ∀ {r e : List Byte}, r.length = g.length → e.length = g.length →
      (e = d.foldl (ecStep (1 :: g)) r ↔
        ∃ q : List Byte, q.length = d.length ∧
          addArrays (r ++ List.replicate d.length 0) (d ++ e) = polyMul q (1 :: g)) := by
  induction d with
  | nil =>
    intro r e hr he
    have zero : addArrays r (polyMul [] (1 :: g)) = r := by
      rw [polyMul_nil, List.length_cons, Nat.add_sub_cancel, ← hr]
      exact addArrays_replicate_zero_right r
    have moved : addArrays r e = polyMul [] (1 :: g) ↔ e = r := by
      rw [addArrays_eq_iff (hr.trans he.symm) (by simp [hr]), zero]
    simp only [List.length_nil, List.length_eq_zero_iff, exists_eq_left, List.replicate_zero, List.append_nil,
      List.nil_append, List.foldl_nil]
    exact moved.symm
  | cons x d ih =>
    intro r e hr he
    have hpos : 0 < r.length := hr ▸ List.length_pos_iff.mpr hg
    obtain ⟨r₀, r, rfl⟩ := List.exists_cons_of_length_pos hpos
    have hstep := ecStep_length (g := 1 :: g) x (List.cons_ne_nil r₀ r) (by simp [← hr])
    have step (q₀ : Byte) {q : List Byte} (hq : q.length = d.length) :=
      division_step (r₀ := r₀) (x := x) (q₀ := q₀) hr (c := d ++ e) (by simp [he, Nat.add_comm]) hq
    rw [List.foldl_cons, ih (hstep.trans hr) he]
    constructor
    · rintro ⟨q, hq, h⟩
      exact ⟨gfAdd r₀ x :: q, congrArg Nat.succ hq, (step _ hq).mpr ⟨rfl, h⟩⟩
    · rintro ⟨_ | ⟨q₀, q⟩, hq, h⟩
      · cases hq
      · exact ⟨q, Nat.succ.inj hq, ((step q₀ (Nat.succ.inj hq)).mp h).2⟩

/-- The codeword of a block is a multiple of g_k for one choice of the k bytes after the data: the EC bytes (R601). -/
theorem eq_ecBytes_iff (d : List Byte) {r : List Byte} {k : Nat} (hk : 1 ≤ k) (hr : r.length = k) :
    r = ecBytes d k ↔ ∃ q : List Byte, q.length = d.length ∧ d ++ r = polyMul q (genPoly k) := by
  obtain ⟨g, hg⟩ := List.head?_eq_some_iff.mp (genPoly_head? k)
  have hlen : g.length = k := by simpa [hg] using genPoly_length k
  have start : addArrays (List.replicate k 0 ++ List.replicate d.length 0) (d ++ r) = d ++ r := by
    rw [List.replicate_append_replicate, show k + d.length = (d ++ r).length by simp [hr, Nat.add_comm]]
    exact addArrays_replicate_zero _
  rw [ecBytes, hg, ecFold_eq_iff (List.ne_nil_of_length_pos (by omega)) d (by simp [hlen]) (hr.trans hlen.symm), start]

/-- Settles O36: long division, by induction on the data. -/
theorem ecBytesAreTheRemainder : Obligations.EcBytesAreTheRemainder := by
  rintro d r k - hk rfl
  rw [addArrays_shift]
  exact eq_ecBytes_iff d hk rfl

/-! ## The syndromes -/

/-- Syndrome j is the codeword's value at α^j (R610, R611). -/
theorem syndromes_getD (c : List Byte) {j k : Nat} (hj : j < k) (hk : k ≤ 256) :
    (syndromes c k).getD j 0 = evalAt (gfExp j) c := by
  rw [syndromes, synFold_getD j c _ (by simpa) (by simpa), List.getD_replicate _ hj]
  rfl

/-- A value followed by `n` zero coefficients is multiplied by α^j as often. -/
theorem horner_gfExp_replicate_zero {j : Nat} (hj : j < 255) (n : Nat) :
    ∀ a, horner (gfExp j) a (List.replicate n 0) = gfMul a (gfExp (j * n % 255)) := by
  induction n with
  | zero => exact fun a => (gfMul_one_right a).symm
  | succ n ih =>
    intro a
    rw [List.replicate_succ, horner_cons, gfAdd_zero_right, ih, gfMul_assoc, gfMul_gfExp hj (Nat.mod_lt _ (by decide)),
      Nat.add_mod_mod, Nat.mul_succ, Nat.add_comm]

/-- The value at α^j as rule R610's sum over the codeword. -/
theorem evalAt_gfExp_eq_sum {j : Nat} (hj : j < 255) (c : List Byte) :
    evalAt (gfExp j) c = gfSum ((List.range c.length).map fun i =>
      gfMul (c.getD i 0) (gfExp (j * (c.length - 1 - i) % 255))) := by
  induction c with
  | nil => rfl
  | cons x c ih =>
    rw [evalAt_cons, horner_eq_add, horner_gfExp_replicate_zero hj, ih, List.length_cons, gfSum_map_range_succ]
    simp only [List.getD_cons_zero, List.getD_cons_succ, Nat.add_sub_cancel, Nat.sub_zero, Nat.sub_add_eq,
      Nat.sub_right_comm _ _ 1]

theorem allZero_iff (xs : List Byte) : allZero xs = true ↔ ∀ j, j < xs.length → xs.getD j 0 = 0 := by
  refine ⟨fun h j _ => getD_of_allZero h j, fun h => ?_⟩
  simp only [allZero, List.all_eq_true, beq_iff_eq]
  intro x hx
  obtain ⟨j, hj, rfl⟩ := List.getElem_of_mem hx
  rw [← h j hj, List.getD_eq_getElem]

/-- An encoded block is a multiple of g_k, so its value is 0 at g_k's roots (R612). -/
theorem evalAt_encoded (d : List Byte) {j k : Nat} (hj : j < k) : evalAt (gfExp j) (d ++ ecBytes d k) = 0 := by
  have hk : 1 ≤ k := by omega
  obtain ⟨q, -, hmul⟩ := (eq_ecBytes_iff d hk (ecBytes_length d hk)).mp rfl
  have hgen : genPoly k ≠ [] := List.ne_nil_of_length_pos (by simp)
  rw [hmul, evalAt_polyMul _ _ hgen, evalAt_gfExp_genPoly hj, gfMul_zero_right]

/-- Every syndrome of an encoded block is 0 (R612). -/
theorem allZero_syndromes_encoded (d : List Byte) {k : Nat} (hk : k ≤ 256) :
    allZero (syndromes (d ++ ecBytes d k) k) = true := by
  rw [allZero_iff, syndromes_length _ hk]
  exact fun j hj => (syndromes_getD _ hj hk).trans (evalAt_encoded d hj)

/-! ## The checks of RS_ENCODE and SYNDROME -/

theorem firstFailing_cons (p : Prop) [Decidable p] (c : FaultCode) (cs : List (Bool × FaultCode)) :
    firstFailing ((decide p, c) :: cs) = if p then some c else firstFailing cs := by
  by_cases h : p <;> simp [firstFailing, h]

/-- The two commands' checks: the three lengths name BAD_LENGTH, then the range names BUF_RANGE (R605, R615). -/
theorem firstFailing_rsChecks (s : State) :
    firstFailing (rsChecks s) =
      if opN s < 1 ∨ opK s < 1 ∨ opN s + opK s > 255 then some .badLength
      else if opS s + opN s > 4096 then some .bufRange else none := by
  rw [rsChecks, ite_or, ite_or]
  simp only [firstFailing_cons]
  rfl

/-- Both commands record the fault their checks name. -/
theorem exec_rs_of_firstFailing {s : State} {c : FaultCode} (h : firstFailing (rsChecks s) = some c) :
    exec .rsEncode s = .next (s.withFault c 0x20) ∧ exec .syndrome s = .next (s.withFault c 0x21) :=
  ⟨by rw [exec, execRsEncode, runChecked_of_some h], by rw [exec, execSyndrome, runChecked_of_some h]⟩

/-- Settles O39: the first failing check, recorded. -/
theorem rsCommandsRefuseBadOperands : Obligations.RsCommandsRefuseBadOperands := by
  refine fun s => ⟨fun h => ?_, fun hn hk hnk hs => ?_⟩
  · exact exec_rs_of_firstFailing (c := .badLength) (by rw [firstFailing_rsChecks, if_pos h])
  · exact exec_rs_of_firstFailing (c := .bufRange) (by rw [firstFailing_rsChecks, if_neg (by omega), if_pos hs])

/-! ## What RS_ENCODE writes -/

/-- A run of entries that reads as the array `vs` is `vs`. -/
theorem State.entries_eq_of_getD {s : State} {b : Buf} {i n : Nat} {vs : List Byte} (hlen : vs.length = n)
    (h : ∀ j, j < n → s.entry b (i + j) = vs.getD j 0) : s.entries b i n = vs := by
  refine List.ext_getElem (by simp [hlen]) fun j hj hj' => ?_
  rw [State.entries_length] at hj
  rw [← List.getD_eq_getElem (d := 0), ← List.getD_eq_getElem (d := 0), State.entries_getD _ _ _ _ _ hj, h j hj]

theorem exec_rsEncode {s : State} (h : rsLegal s) : exec .rsEncode s = .next (effectOf .rsEncode s).withDone :=
  exec_of_passes ((rs_passes s).mpr h)

theorem exec_syndrome {s : State} (h : rsLegal s) : exec .syndrome s = .next (effectOf .syndrome s).withDone :=
  exec_of_passes ((rs_passes s).mpr h)

/-- ECB holds the EC bytes of the data block, and 0 after them (R605). -/
theorem effectOf_rsEncode_ecb (s : State) {j : Nat} (hj : j < 256) :
    (effectOf .rsEncode s).entry .ecb j = (ecBytes (dataBlock s) (opK s)).getD j 0 :=
  State.entry_setBuf_same _ .ecb _ hj

/-- GEN and ECB lie side by side: RS_ENCODE changes no byte outside the two (R141). -/
theorem sameOutside_rsEncode (s : State) : sameOutside s.mem (effectOf .rsEncode s).mem 0x2000 512 := by
  intro off hoff
  have hecb : off < Buf.ecb.base ∨ Buf.ecb.base + 4 * Buf.ecb.size ≤ off := by
    simp only [Buf.base, Buf.size, Config.polyMax]
    omega
  have hgen : off < Buf.gen.base ∨ Buf.gen.base + 4 * Buf.gen.size ≤ off := by
    simp only [Buf.base, Buf.size, Config.polyMax]
    omega
  exact (sameOutside_setBuf _ .ecb _ off hecb).trans (sameOutside_setBuf s .gen _ off hgen)

/-- Settles O35: g_k, the EC bytes, and the zeroes after each. -/
theorem rsEncodeWritesTheEcBytes : Obligations.RsEncodeWritesTheEcBytes := by
  refine fun s h => ⟨_, exec_rsEncode h, rfl, fun j hj => ?_, fun j hj => ?_, sameOutside_rsEncode s⟩
  · exact (effectOf_entry_gen s (by decide) hj).trans (genPoly_getD_eq_ite _ j)
  · refine (effectOf_rsEncode_ecb s hj).trans ?_
    split
    · rfl
    · obtain ⟨-, hk, -, -⟩ := h
      exact List.getD_eq_default _ _ (by rw [ecBytes_length _ hk]; omega)

/-- Settles O37: the two data blocks are one array. -/
theorem ecBytesDependOnDataAndDegreeOnly : Obligations.EcBytesDependOnDataAndDegreeOnly := by
  intro s s' t t' h h' hn hk hdata ht ht' j hj
  rw [exec_rsEncode h] at ht
  rw [exec_rsEncode h'] at ht'
  cases ht
  cases ht'
  have hblock : dataBlock s = dataBlock s' := by
    refine State.entries_eq_of_getD (by simp [hn]) fun j hj => ?_
    rw [hdata j hj, dataBlock, State.entries_getD _ _ _ _ _ (hn ▸ hj)]
  calc (effectOf .rsEncode s).entry .ecb j
      _ = (ecBytes (dataBlock s) (opK s)).getD j 0 := effectOf_rsEncode_ecb s hj
      _ = (ecBytes (dataBlock s') (opK s')).getD j 0 := by rw [hblock, hk]
      _ = (effectOf .rsEncode s').entry .ecb j := (effectOf_rsEncode_ecb s' hj).symm

/-! ## What SYNDROME writes -/

/-- SYN holds the syndromes of the codeword, and 0 after them (R615). -/
theorem effectOf_syndrome_syn (s : State) {j : Nat} (hj : j < 256) :
    (effectOf .syndrome s).entry .syn j = (syndromes (codeword s) (opK s)).getD j 0 :=
  State.entry_setBuf_same s .syn _ hj

/-- A codeword's byte is a data byte or an EC byte (R615). -/
theorem codeword_getD (s : State) {i : Nat} (hi : i < opN s + opK s) :
    (codeword s).getD i 0 = if i < opN s then s.entry .dbuf (opS s + i) else s.entry .ecb (i - opN s) := by
  rw [codeword]
  split
  · rename_i h
    rw [List.getD_append _ _ _ _ (by simpa using h), dataBlock, State.entries_getD _ _ _ _ _ h]
  · rename_i h
    rw [List.getD_append_right _ _ _ _ (by simpa using h), dataBlock_length, State.entries_getD _ _ _ _ _ (by omega),
      Nat.zero_add]

/-- Settles O38: each accumulator's value as a sum, and SYN_ZERO. -/
theorem syndromeWritesTheSyndromes : Obligations.SyndromeWritesTheSyndromes := by
  intro s h
  have ⟨_, _, hnk, _⟩ := h
  refine ⟨_, exec_syndrome h, rfl, fun j hj => ?_, ?_, sameOutside_setBuf s .syn _⟩
  · refine (effectOf_syndrome_syn s hj).trans ?_
    split
    · rename_i hjk
      rw [syndromes_getD _ hjk (by omega), evalAt_gfExp_eq_sum (by omega), codeword_length]
      exact congrArg gfSum (List.map_congr_left fun i hi => by rw [codeword_getD s (List.mem_range.mp hi)])
    · exact List.getD_eq_default _ _ (by rw [syndromes_length _ (by omega)]; omega)
  · refine (allZero_iff _).trans ?_
    rw [syndromes_length _ (by omega)]
    exact forall₂_congr fun j hj => by rw [← effectOf_syndrome_syn s (by omega)]; rfl

/-- After RS_ENCODE the codeword is the data block with its EC bytes (R605). -/
theorem codeword_rsEncode {s : State} (h : rsLegal s) :
    codeword (effectOf .rsEncode s).withDone = dataBlock s ++ ecBytes (dataBlock s) (opK s) := by
  obtain ⟨-, hk, hnk, hs⟩ := h
  have data : (effectOf .rsEncode s).entries .dbuf (opS s) (opN s) = dataBlock s := by
    refine State.entries_eq_of_getD (dataBlock_length s) fun j hj => ?_
    rw [dataBlock, State.entries_getD _ _ _ _ _ hj]
    exact effectOf_entry_other s (by decide) (Nat.lt_of_lt_of_le (Nat.add_lt_add_left hj _) hs)
  have ec : (effectOf .rsEncode s).entries .ecb 0 (opK s) = ecBytes (dataBlock s) (opK s) := by
    refine State.entries_eq_of_getD (ecBytes_length _ hk) fun j hj => ?_
    rw [Nat.zero_add]
    exact effectOf_rsEncode_ecb s (by omega)
  exact congrArg₂ (· ++ ·) data ec

/-- Settles O40: the encoded block is a codeword, and its syndromes are 0. -/
theorem encodedBlockHasZeroSyndromes : Obligations.EncodedBlockHasZeroSyndromes := by
  intro s t h ht
  rw [exec_rsEncode h] at ht
  cases ht
  have ⟨_, _, hnk, _⟩ := h
  have legal : rsLegal (effectOf .rsEncode s).withDone := h
  have zero : allZero (syndromes (codeword (effectOf .rsEncode s).withDone) (opK s)) = true := by
    rw [codeword_rsEncode h]
    exact allZero_syndromes_encoded _ (by omega)
  exact ⟨_, exec_syndrome legal, zero, fun j hj => (effectOf_syndrome_syn _ hj).trans (getD_of_allZero zero j)⟩

end Sys2Proof.Machine

/-! SUPPORT. Proofs about the interleaver and the formatter: the block split, the codeword sequence as its rows, what
INTERLEAVE writes and refuses, and the bit stream. -/

namespace Sys2Proof.Machine
open Sys2Proof.Ref

/-! ## The split -/

/-- The blocks take B · d1 + g2 data bytes (R702). -/
theorem blockSizes_sum {T D B : Nat} (hB : 1 ≤ B) : (blockSizes T D B).sum = B * (D / B) + T % B := by
  have hlt : T % B < B := Nat.mod_lt _ hB
  have h := blockSizes_take_sum T D B B le_rfl
  rw [List.take_of_length_le (by simp [blockSizes])] at h
  omega

/-- The EC bytes divide evenly exactly when T and D leave the same rest (R702). -/
theorem mod_eq_mod_iff {T D B : Nat} (h : D ≤ T) : T % B = D % B ↔ (T - D) % B = 0 := by
  rw [← Nat.dvd_iff_mod_eq_zero, ← Nat.modEq_iff_dvd' h]
  exact eq_comm

/-- Settles O43: B · d1 + g2 is D exactly when g2 is D mod B. -/
theorem splitUsesAllDataIffEcCountsMatch : Obligations.SplitUsesAllDataIffEcCountsMatch := by
  intro T D B hB _ hDT
  have hD : B * (D / B) + D % B = D := Nat.div_add_mod D B
  rw [blockSizes_sum hB, ← mod_eq_mod_iff hDT.le]
  omega

/-- o_b, where block `b` starts in the data (R701). -/
def blockStart (T D B b : Nat) : Nat := b * (D / B) + (b - group1 T B)

/-- The data bytes of block `b` (R701). -/
def blockData (T D B : Nat) (d : List Byte) (b : Nat) : List Byte :=
  (d.drop (blockStart T D B b)).take (blockSize T D B b)

/-- The split gives each block its bytes (R701). -/
theorem dataBlocks_eq_map (T D B : Nat) (d : List Byte) :
    dataBlocks T D B d = (List.range B).map (blockData T D B d) := by
  have hlen : (dataBlocks T D B d).length = B := by simp [dataBlocks, splitRuns_length, blockSizes]
  refine List.ext_getElem (by simp [hlen]) fun b hb _ => Option.some_injective _ ?_
  have hbB : b < B := hlen ▸ hb
  rw [← List.getElem?_eq_getElem, dataBlocks, splitRuns_getElem?, blockSizes_take_sum T D B b hbB.le]
  simp [blockSizes, hbB, blockData, blockStart, group1, group2]

theorem ecBlocks_eq_map (T D B : Nat) (d : List Byte) :
    ecBlocks T D B d = (List.range B).map fun b => ecBytes (blockData T D B d b) (ecPerBlock T D B) := by
  rw [ecBlocks, dataBlocks_eq_map, List.map_map]
  rfl

theorem blockData_length_le (T D B : Nat) (d : List Byte) (b : Nat) :
    (blockData T D B d b).length ≤ blockSize T D B b := List.length_take_le _ _

theorem blockSize_group1 {T B : Nat} (D : Nat) {b : Nat} (hb : b < group1 T B) : blockSize T D B b = D / B := if_pos hb

theorem blockSize_group2 (T D B j : Nat) : blockSize T D B (group1 T B + j) = D / B + 1 := if_neg (by omega)

theorem blockSize_le (T D B b : Nat) : blockSize T D B b ≤ D / B + 1 := by
  rw [blockSize]
  split <;> omega

theorem div_le_blockSize (T D B b : Nat) : D / B ≤ blockSize T D B b := by
  rw [blockSize]
  split <;> omega

theorem blockStart_succ (T D B b : Nat) : blockStart T D B (b + 1) = blockStart T D B b + blockSize T D B b := by
  simp only [blockStart, blockSize, Nat.succ_mul]
  split <;> omega

section
variable {T D B : Nat} (hB : 1 ≤ B) (hmod : T % B = D % B)
include hB hmod

/-- The last block ends within the data (R702). -/
theorem blockStart_le {b : Nat} (hb : b ≤ B) : blockStart T D B b ≤ D := by
  have hlt : D % B < B := Nat.mod_lt _ hB
  have hD : B * (D / B) + D % B = D := Nat.div_add_mod D B
  have hmul : b * (D / B) ≤ B * (D / B) := Nat.mul_le_mul_right _ hb
  rw [blockStart, group1, group2, hmod]
  omega

/-- Block `b` has its n_b bytes (R701, R702). -/
theorem blockData_length {d : List Byte} (hd : d.length = D) {b : Nat} (hb : b < B) :
    (blockData T D B d b).length = blockSize T D B b := by
  have hend := blockStart_le hB hmod (b := b + 1) hb
  rw [blockStart_succ] at hend
  rw [blockData, List.length_take, List.length_drop]
  omega

end

theorem blockData_getD {T D B : Nat} (d : List Byte) {b i : Nat} (hi : i < blockSize T D B b) :
    (blockData T D B d b).getD i 0 = d.getD (blockStart T D B b + i) 0 := by
  simp [blockData, List.getD_eq_getElem?_getD, hi]

/-! ## Columns -/

/-- A column that every block reaches has a byte of each (R704). -/
theorem column_map_eq_map {bs : List Nat} {f : Nat → List Byte} {i : Nat} (h : ∀ b ∈ bs, i < (f b).length) :
    column (bs.map f) i = bs.map fun b => (f b).getD i 0 := by
  rw [column, List.filterMap_map, List.filterMap_eq_map_iff_forall_eq_some]
  exact fun b hb => by simp [h b hb]

/-- A column that no block reaches is empty (R704). -/
theorem column_eq_nil {blocks : List (List Byte)} {i : Nat} (h : ∀ blk ∈ blocks, blk.length ≤ i) :
    column blocks i = [] :=
  List.filterMap_eq_nil_iff.mpr fun blk hblk => List.getElem?_eq_none (h blk hblk)

theorem column_append (blocks blocks' : List (List Byte)) (i : Nat) :
    column (blocks ++ blocks') i = column blocks i ++ column blocks' i := List.filterMap_append

theorem columns_succ (blocks : List (List Byte)) (len : Nat) :
    columns blocks (len + 1) = columns blocks len ++ column blocks len := by simp [columns, List.range_succ]

/-- Columns after the longest block's last one add nothing (R704). -/
theorem columns_eq_of_le {blocks : List (List Byte)} {len len' : Nat} (h : ∀ blk ∈ blocks, blk.length ≤ len)
    (hle : len ≤ len') : columns blocks len' = columns blocks len := by
  induction len', hle using Nat.le_induction with
  | base => rfl
  | succ m hm ih => rw [columns_succ, ih, column_eq_nil fun blk hblk => (h blk hblk).trans hm, List.append_nil]

section
variable {B len : Nat} {f : Nat → List Byte} (h : ∀ b, b < B → len ≤ (f b).length)
include h

theorem fullColumn_eq_map {i : Nat} (hi : i < len) :
    column ((List.range B).map f) i = (List.range B).map fun b => (f b).getD i 0 :=
  column_map_eq_map fun b hb => hi.trans_le (h b (List.mem_range.mp hb))

theorem fullColumn_length {i : Nat} (hi : i < len) : (column ((List.range B).map f) i).length = B := by
  rw [fullColumn_eq_map h hi, List.length_map, List.length_range]

/-- Columns that all B blocks reach have B bytes each. -/
theorem fullColumns_length : (columns ((List.range B).map f) len).length = len * B :=
  flatMap_range_length _ _ fun _ => fullColumn_length h

/-- In columns that all B blocks reach, byte `i` of block `b` stands at i · B + b. -/
theorem fullColumns_getD {i b : Nat} (hi : i < len) (hb : b < B) :
    (columns ((List.range B).map f) len).getD (i * B + b) 0 = (f b).getD i 0 := by
  rw [columns, flatMap_range_getD _ _ (fun _ => fullColumn_length h) hi hb, fullColumn_eq_map h hi]
  simp [List.getD_eq_getElem?_getD, hb]

end

/-! ## The codeword sequence -/

/-- The codeword sequence: the rows every block has, the last bytes of the longer blocks, the EC rows (R704). -/
theorem interleave_eq_append (T D B : Nat) (d : List Byte) :
    interleave T D B d = columns (dataBlocks T D B d) (D / B) ++ column (dataBlocks T D B d) (D / B) ++
      columns (ecBlocks T D B d) (ecPerBlock T D B) := by
  have longest : (blockSizes T D B).foldr max 0 ≤ D / B + 1 :=
    List.max_le_of_forall_le _ _ (List.forall_mem_map.mpr fun b _ => blockSize_le T D B b)
  have within : ∀ blk ∈ dataBlocks T D B d, blk.length ≤ (blockSizes T D B).foldr max 0 := by
    rw [dataBlocks_eq_map]
    exact List.forall_mem_map.mpr fun b hb =>
      List.le_max_of_le (List.mem_map_of_mem hb) (blockData_length_le T D B d b)
  rw [interleave, ← columns_succ, columns_eq_of_le within longest]

section
variable {T D B : Nat} {d : List Byte}

/-- Every block has its e EC bytes (R703). -/
theorem ecPerBlock_le_length (blk : List Byte) :
    ecPerBlock T D B ≤ (ecBytes blk (ecPerBlock T D B)).length := by
  rcases Nat.eq_zero_or_pos (ecPerBlock T D B) with he | he
  · exact he ▸ Nat.zero_le _
  · exact (ecBytes_length _ he).ge

theorem ecColumns_length : (columns (ecBlocks T D B d) (ecPerBlock T D B)).length = ecPerBlock T D B * B := by
  rw [ecBlocks_eq_map]
  exact fullColumns_length fun _ _ => ecPerBlock_le_length _

theorem ecColumns_getD {i b : Nat} (hi : i < ecPerBlock T D B) (hb : b < B) :
    (columns (ecBlocks T D B d) (ecPerBlock T D B)).getD (i * B + b) 0 =
      (ecBytes (blockData T D B d b) (ecPerBlock T D B)).getD i 0 := by
  rw [ecBlocks_eq_map]
  exact fullColumns_getD (fun _ _ => ecPerBlock_le_length _) hi hb

variable (hB : 1 ≤ B) (hmod : T % B = D % B) (hd : d.length = D)
include hB hmod hd

/-- Every block has d1 data bytes at least (R701). -/
theorem div_le_blockData_length {b : Nat} (hb : b < B) : D / B ≤ (blockData T D B d b).length := by
  rw [blockData_length hB hmod hd hb]
  exact div_le_blockSize T D B b

theorem dataColumns_length : (columns (dataBlocks T D B d) (D / B)).length = D / B * B := by
  rw [dataBlocks_eq_map]
  exact fullColumns_length fun _ => div_le_blockData_length hB hmod hd

theorem dataColumns_getD {i b : Nat} (hi : i < D / B) (hb : b < B) :
    (columns (dataBlocks T D B d) (D / B)).getD (i * B + b) 0 = d.getD (blockStart T D B b + i) 0 := by
  rw [dataBlocks_eq_map, fullColumns_getD (fun _ => div_le_blockData_length hB hmod hd) hi hb]
  exact blockData_getD d (hi.trans_le (div_le_blockSize T D B b))

/-- The row after the full ones has one byte of each group-2 block (R704). -/
theorem lastDataColumn_eq_map :
    column (dataBlocks T D B d) (D / B) =
      (List.range (T % B)).map fun j => d.getD (blockStart T D B (group1 T B + j) + D / B) 0 := by
  have hlt : T % B < B := Nat.mod_lt _ hB
  have hsplit : List.range B = List.range (group1 T B) ++ (List.range (T % B)).map (group1 T B + ·) := by
    rw [← List.range_add, group1, group2, Nat.sub_add_cancel hlt.le]
  have hlen : ∀ j ∈ List.range (T % B), D / B < (blockData T D B d (group1 T B + j)).length := fun j hj => by
    rw [List.mem_range] at hj
    rw [blockData_length hB hmod hd (by rw [group1, group2]; omega), blockSize_group2]
    omega
  rw [dataBlocks_eq_map, hsplit, List.map_append, List.map_map, column_append, column_eq_nil, List.nil_append]
  · refine (column_map_eq_map hlen).trans ?_
    exact List.map_congr_left fun j _ => blockData_getD d (by rw [blockSize_group2]; omega)
  · exact List.forall_mem_map.mpr fun b hb =>
      (blockData_length_le T D B d b).trans (blockSize_group1 D (List.mem_range.mp hb)).le

/-- The data rows hold the D data bytes (R702, R704). -/
theorem dataRows_length :
    (columns (dataBlocks T D B d) (D / B) ++ column (dataBlocks T D B d) (D / B)).length = D := by
  rw [List.length_append, dataColumns_length hB hmod hd, lastDataColumn_eq_map hB hmod hd, List.length_map,
    List.length_range, hmod, Nat.div_add_mod']

/-- The sequence has T codewords (R705). -/
theorem interleave_length (hDT : D ≤ T) : (interleave T D B d).length = T := by
  have hT : T / B * B + T % B = T := Nat.div_add_mod' T B
  have hD : D / B * B + D % B = D := Nat.div_add_mod' D B
  rw [interleave_eq_append, List.length_append, dataRows_length hB hmod hd, ecColumns_length, ecPerBlock,
    Nat.sub_mul]
  omega

/-- Data byte `i` of block `b`, in a row every block has (R704). -/
theorem interleave_getD_data {i b : Nat} (hi : i < D / B) (hb : b < B) :
    (interleave T D B d).getD (i * B + b) 0 = d.getD (blockStart T D B b + i) 0 := by
  have hrow : (i + 1) * B ≤ D / B * B := Nat.mul_le_mul_right B hi
  rw [Nat.succ_mul, ← dataColumns_length hB hmod hd] at hrow
  rw [interleave_eq_append, List.append_assoc, List.getD_append _ _ _ _ (by omega), dataColumns_getD hB hmod hd hi hb]

/-- The last data byte of a group-2 block (R704). -/
theorem interleave_getD_lastData {j : Nat} (hj : j < T % B) :
    (interleave T D B d).getD (D / B * B + j) 0 = d.getD (blockStart T D B (group1 T B + j) + D / B) 0 := by
  have hlen := dataColumns_length hB hmod hd
  have hlast := lastDataColumn_eq_map hB hmod hd
  rw [interleave_eq_append, List.append_assoc, List.getD_append_right _ _ _ _ (by omega), hlen,
    Nat.add_sub_cancel_left, hlast, List.getD_append _ _ _ _ (by simpa), List.getD_eq_getElem _ _ (by simpa)]
  simp

/-- EC byte `i` of block `b` (R704). -/
theorem interleave_getD_ec {i b : Nat} (hi : i < ecPerBlock T D B) (hb : b < B) :
    (interleave T D B d).getD (D + i * B + b) 0 = (ecBytes (blockData T D B d b) (ecPerBlock T D B)).getD i 0 := by
  have hlen := dataRows_length hB hmod hd
  rw [interleave_eq_append, List.getD_append_right _ _ _ _ (by omega), hlen, Nat.add_assoc, Nat.add_sub_cancel_left,
    ecColumns_getD hi hb]

end

/-- Settles O42: the length, and the three kinds of rows. -/
theorem codewordsAreInterleavedByColumns : Obligations.CodewordsAreInterleavedByColumns := by
  intro T D B d hB _ hDT hdiv hd
  have hmod : T % B = D % B := (mod_eq_mod_iff hDT.le).mpr hdiv
  refine ⟨interleave_length hB hmod hd hDT.le, fun i b => interleave_getD_data hB hmod hd, fun b hg hb => ?_,
    fun i b => interleave_getD_ec hB hmod hd⟩
  have hj : b - group1 T B < T % B := by
    rw [group1, group2] at *
    omega
  have h := interleave_getD_lastData hB hmod hd hj
  rwa [show group1 T B + (b - group1 T B) = b from Nat.add_sub_cancel' hg] at h

/-! ## INTERLEAVE -/

/-- OBUF holds the codewords, and 0 after them (R720). -/
theorem effectOf_interleave_obuf (s : State) {i : Nat} (hi : i < 4096) :
    (effectOf .interleave s).entry .obuf i =
      (interleave (opT s) (opD s) (opB' s) (symbolData s)).getD i 0 := State.entry_setBuf_same s .obuf _ hi

theorem effectOf_interleave_outLen (s : State) : (effectOf .interleave s).res.outLen.toNat = opT s := by
  simp [effectOf, opT]

theorem symbolData_eq_map (s : State) : symbolData s = (List.range (opD s)).map fun i => s.entry .dbuf i := by
  simp [symbolData, State.entries]

/-- Settles O41: the effect of INTERLEAVE, and that it makes no more than T codewords. -/
theorem interleaveWritesTheCodewords : Obligations.InterleaveWritesTheCodewords := by
  intro s h
  refine ⟨_, exec_of_passes ((interleave_passes s).mpr h), rfl, effectOf_interleave_outLen s, fun i hi => ?_,
    sameOutside_setBuf s .obuf _⟩
  obtain ⟨hB, -, -, hDT, -, hmod⟩ := h
  rw [← symbolData_eq_map]
  refine (effectOf_interleave_obuf s hi).trans ?_
  split
  · rfl
  · rename_i hiT
    exact List.getD_eq_default _ _ ((interleave_length_le hB hDT.le (symbolData_length s) hmod).trans (by omega))

/-- The five checks of the counts name BAD_LENGTH, then the EC count names EC_MISMATCH (R720). -/
theorem firstFailing_interleaveChecks (s : State) :
    firstFailing (interleaveChecks s) =
      if opB' s < 1 ∨ opT s > 4096 ∨ opD s < opB' s ∨ opD s ≥ opT s ∨
          opT s / opB' s + (if opT s % opB' s > 0 then 1 else 0) > 255 then some .badLength
      else if (opT s - opD s) % opB' s ≠ 0 then some .ecMismatch else none := by
  rw [interleaveChecks, ite_or, ite_or, ite_or, ite_or]
  simp only [firstFailing_cons]
  rfl

/-- INTERLEAVE records the fault its checks name (R801). -/
theorem exec_interleave_of_firstFailing {s : State} {c : FaultCode} (h : firstFailing (interleaveChecks s) = some c) :
    exec .interleave s = .next (s.withFault c 0x30) := by rw [exec, execInterleave, runChecked_of_some h]

/-- Settles O44: the first failing check, recorded. -/
theorem interleaveRefusesBadCounts : Obligations.InterleaveRefusesBadCounts := by
  refine fun s => ⟨fun h => ?_, fun hB hT hBD hDT hlong hmod => ?_⟩
  · exact exec_interleave_of_firstFailing (c := .badLength) (by rw [firstFailing_interleaveChecks, if_pos h])
  · exact exec_interleave_of_firstFailing (c := .ecMismatch)
      (by rw [firstFailing_interleaveChecks, if_neg (by omega), if_pos hmod])

/-! ## The formatter -/

theorem bitStream_cons (x : Byte) (xs : List Byte) :
    bitStream (x :: xs) = ((List.range 8).map fun j => x.getLsbD (7 - j)) ++ bitStream xs := rfl

/-- Bit `p` of the stream is bit 7 − p mod 8 of codeword p div 8; after the stream it is 0 (R730). -/
theorem bitStream_getD (xs : List Byte) (p : Nat) :
    (bitStream xs).getD p false = (xs.getD (p / 8) 0).getLsbD (7 - p % 8) := by
  induction xs generalizing p with
  | nil => simp [bitStream]
  | cons x xs ih =>
    rw [bitStream_cons]
    by_cases hp : p < 8
    · rw [List.getD_append _ _ _ _ (by simpa), Nat.div_eq_of_lt hp, Nat.mod_eq_of_lt hp, List.getD_cons_zero]
      simp [hp]
    · obtain ⟨q, rfl⟩ := Nat.exists_eq_add_of_le' (Nat.le_of_not_lt hp)
      rw [List.getD_append_right _ _ _ _ (by simp), List.length_map, List.length_range, Nat.add_sub_cancel, ih,
        Nat.add_div_right q (by decide), Nat.add_mod_right, List.getD_cons_succ]

/-- FMT_BIT is the bit of the stream at FMT_PTR (R730). -/
theorem fmtBit_eq_bitStream (s : State) :
    fmtBit s =
      (bitStream ((List.range s.res.outLen.toNat).map fun i => s.entry .obuf i)).getD s.ops.fmtPtr.toNat false := by
  rw [bitStream_getD, fmtBit]
  split
  · rw [List.getD_eq_getElem _ _ (by simp; omega)]
    simp
  · rw [List.getD_eq_default _ _ (by simp; omega)]
    simp

/-- Settles O45: the write sets FMT_PTR alone, and the read gives the stream's bit there. -/
theorem formatterReadsTheStreamMsbFirst : Obligations.FormatterReadsTheStreamMsbFirst := by
  intro s p
  have hwrite : busWrite (wordAddr 0x044) p s = { s with ops := { s.ops with fmtPtr := p.setWidth 16 } } :=
    busWrite_reg .fmtPtr p s
  have hread (t : State) : busRead (wordAddr 0x048) t = if fmtBit t then 1 else 0 := by
    rw [show busRead (wordAddr 0x048) t = readReg .fmtBit t from busRead_reg .fmtBit t, readReg]
    cases fmtBit t <;> rfl
  rw [hwrite, hread, fmtBit_eq_bitStream, BitVec.toNat_setWidth]
  rfl

end Sys2Proof.Machine

/-! SUPPORT. Proofs about the interrupt output and about a reset while a command runs (R820, R830, R900). -/

namespace Sys2Proof.Machine

/-! ## The interrupt output (R830) -/

/-- A completion keeps IRQ_EN and leaves DONE or FAULT at 1, so irq is the enable. -/
theorem complete_irq {v : Word} {s t : State} (h : complete v s = .next t) : t.irq = s.irqEn := by
  rcases complete_cases h with ⟨i, -, rfl⟩ | ⟨c, op, rfl⟩ <;> simp [State.irq]

/-- Writing 1 to both flags lowers irq, whatever raised it (R113). -/
theorem irq_busWrite_acknowledge (s : State) : (busWrite (wordAddr 0x008) 0x00000006 s).irq = false := by
  rw [show busWrite (wordAddr 0x008) 6 s = writeStatus 6 s from busWrite_reg .status 6 s]
  simp [State.irq]

/-- The completion of a command's word is the command (R131). -/
theorem complete_encode (i : Instr) (s : State) : complete (encode i) s = exec i s := by
  rw [complete, decode_encode]

/-- No completion is refused and none stops the block, a word that is no command included (R131, R831). -/
theorem complete_next (v : Word) (s : State) : ∃ t, complete v s = .next t := by
  cases hd : decode v with
  | command i => simpa [complete, hd] using exec_next i s
  | illegal why => exact ⟨_, complete_of_illegal hd s⟩

/-- Settles O20: a command's completion is the completion of its word, and irq is a level by definition. -/
theorem completionRaisesIrq : Obligations.CompletionRaisesIrq := by
  refine ⟨fun i s t h => ?_, fun v s => ?_, fun s => rfl⟩
  · exact ⟨complete_irq ((complete_encode i s).trans h), irq_busWrite_acknowledge t⟩
  · obtain ⟨t, ht⟩ := complete_next v s
    exact ⟨t, ht, complete_irq ht, irq_busWrite_acknowledge t⟩

/-! ## A reset while a command runs (R820, R900) -/

/-- The pin's step is the reset, whatever runs. -/
theorem step_of_pinReset {s : State} (hw : whoMoves s = .reset) :
    step s = .next { State.reset with host := s.host, turns := s.turns.tail } := by
  simp [step, hw, State.resetBlock]

/-- A host that asks for a reset keeps its turn, even from a due completion (R820). -/
theorem whoMoves_of_resetAsked {s : State} {ts : List Turn} (h : s.turns = .host :: ts) (hr : resetAsked s = true) :
    whoMoves s = .host := by
  simp [whoMoves, h, hr]

/-- The step of a soft reset is the reset, whatever runs. -/
theorem step_of_softReset {s : State} {v : Word} {rest : List HostOp} (hw : whoMoves s = .host)
    (hh : s.host = .access (.write (wordAddr 0x004) v) :: rest) (hv : v.getLsbD 0 = true) :
    step s = .next { State.reset with host := rest, turns := s.turns.tail, resp := .wrote } := by
  have hr : resetAsked s.tick = true := (resetAsked_iff s.tick).mpr ⟨v, rest, hh, hv⟩
  rw [step_of_host hw, hostTurn_of_resetAsked hr]
  simp [State.resetBlock, hh]

/-- Settles O56: neither reset waits for the completion, so the step is the reset's, at the bound too. -/
theorem resetPrecedesADueCompletion : Obligations.ResetPrecedesADueCompletion := by
  intro s w ts _
  refine ⟨fun hts => ?_, fun v rest hts hh hv => ?_⟩
  · have hw : whoMoves s = .reset := by rw [whoMoves, hts]
    rw [step_of_pinReset hw, hts, List.tail_cons]
  · have hw := whoMoves_of_resetAsked hts ((resetAsked_iff s).mpr ⟨v, rest, hh, hv⟩)
    rw [step_of_softReset hw hh hv, hts, List.tail_cons]

end Sys2Proof.Machine

/-! SUPPORT. Proofs about what a reset leaves (R160, R900 to R902). -/

namespace Sys2Proof.Machine

/-! ## The reset state at the port (R160, R902) -/

/-- Every register but ID reads 0 after reset (R160). -/
theorem readReg_reset {r : Reg} (h : r ≠ .id) : readReg r State.reset = 0 := by
  cases r
  case id => exact absurd rfl h
  all_goals rfl

@[simp] theorem State.entry_reset (b : Buf) (i : Nat) : State.reset.entry b i = 0 := Memory.read_nil (b.offset i)

/-- ID is the word at address 0 and at no other (R201). -/
theorem target_ne_id {addr : BitVec 14} (h : addr ≠ 0) : target addr ≠ .reg .id := by
  intro ht
  have hoff : byteOffset addr = 0 := target_reg_offset ht
  exact h (by rw [← wordAddr_byteOffset addr, hoff]; rfl)

/-- Whatever word other than ID an address names, it reads 0 after reset (R160, R902). -/
theorem busRead_reset {addr : BitVec 14} (h : addr ≠ 0) : busRead addr State.reset = 0 := by
  unfold busRead
  cases ht : target addr with
  | reg r => exact readReg_reset fun hr => target_ne_id h (hr ▸ ht)
  | entry b i => simp
  | reserved => rfl

/-- Settles O54: ID is a constant, every other word reads the reset state, and an idle block holds no access. -/
theorem resetLeavesEverythingZero : Obligations.ResetLeavesEverythingZero := by
  refine ⟨fun addr => ?_, rfl, rfl, rfl, fun v => (held_eq_false_iff _ _).mpr (.inl rfl)⟩
  split
  · next h =>
    rw [h]
    exact busRead_reg .id State.reset
  · next h => exact busRead_reset h

/-- Settles O55: either reset is the step, whatever ran. -/
theorem bothResetsLeaveTheResetState : Obligations.BothResetsLeaveTheResetState :=
  fun _ => ⟨step_of_pinReset, fun _ _ => step_of_softReset⟩

end Sys2Proof.Machine
